-- ==== Sys2Proof/Word.lean ====
section
/-! DEFINITION. The words, bytes, field elements and polynomials of Falcon512-CORE, and the constants
of `00_scope.md` rule R7. -/

namespace Sys2Proof

/-- One byte of `BUF` (rule R70). -/
abbrev Byte := BitVec 8

/-- A command word (rule R100). -/
abbrev Word32 := BitVec 32

/-- The contents of an `x`, `m`, `n` or `c` register (rules R32, R39 to R41). -/
abbrev Word64 := BitVec 64

/-- The ring degree `N` (rule R7). -/
abbrev ringDegree : Nat := 512

/-- The field modulus `q` (rule R7). -/
abbrev q : Nat := 12289

/-- The public-key header byte `PK_HDR` (rule R7). -/
abbrev pkHeader : Byte := 0x09

/-- The signature header byte `SIG_HDR` (rule R7). -/
abbrev sigHeader : Byte := 0x39

/-- The length of a public-key blob, `PK_LEN` (rule R7). -/
abbrev pkLen : Nat := 897

/-- The length of a signature blob, `SIG_LEN` (rule R7). -/
abbrev sigLen : Nat := 666

/-- The length of the combined serialization, `SER_LEN`, which is the size of `BUF` (rules R7, R70). -/
abbrev serLen : Nat := 1563

/-- A field element: the canonical representative in [0, q) and nothing else (rule R130). -/
abbrev Fq := Fin q

/-- The field element of a natural number, by the mathematical `mod` of rule R11. -/
def Fq.ofNat (v : Nat) : Fq := ⟨v % q, Nat.mod_lt v (by decide)⟩

/-- The vector whose entry `i` is `f i`. -/
def tabulate {α : Type} (n : Nat) (f : Fin n → α) : Vector α n := ⟨⟨List.ofFn f⟩, by simp⟩

/-- A polynomial: exactly 512 field elements (rule R17). -/
abbrev Poly := Vector Fq ringDegree

/-- The polynomial whose entries are those of a list of 512 elements (a longer list is cut, a shorter
one filled with zeros; every caller gives 512). -/
def Poly.ofList (l : List Fq) : Poly :=
  ⟨⟨(l ++ List.replicate ringDegree 0).take ringDegree⟩, by simp⟩

/-- The zero polynomial. -/
def Poly.zero : Poly := Vector.replicate ringDegree 0

end Sys2Proof
end

