-- ==== Sys2Proof/Syntax.lean ====
section
/-! DEFINITION. The 27 commands of `30_encoding.md` rule R105, one constructor each, with their
operands in field order `rd`, `ra`, `rb`, then `idx` (rule R110). -/

namespace Sys2Proof

/-- An index into the integer registers `x[0..15]` (rule R103). -/
abbrev XReg := Fin 16

/-- An index into the field registers `f[0..15]` (rule R103). -/
abbrev FReg := Fin 16

/-- An index into the polynomial registers `p[0..7]` (rule R103). -/
abbrev PReg := Fin 8

/-- The 9-bit unsigned index `idx` (rules R101, R106). -/
abbrev Idx := Fin 512

/-- The commands of rule R105. -/
inductive Instr where
  -- field arithmetic (`40_field.md`)
  | fredu (rd : FReg) (ra : XReg)
  | freds (rd : FReg) (ra : XReg)
  | fadd (rd ra rb : FReg)
  | fsub (rd ra rb : FReg)
  | fmul (rd ra rb : FReg)
  | fint (rd : XReg) (ra : FReg)
  -- ring and NTT (`41_ring.md`)
  | pzero (rd : PReg)
  | pset (rd : PReg) (ra : FReg) (idx : Idx)
  | pget (rd : FReg) (ra : PReg) (idx : Idx)
  | ntt (rd ra : PReg)
  | intt (rd ra : PReg)
  | hadam (rd ra rb : PReg)
  | psub (rd ra rb : PReg)
  | normsq (rd : XReg) (ra : PReg)
  | peq (rd : XReg) (ra rb : PReg)
  -- codec (`42_codec.md`)
  | pkdec (rd : PReg)
  | sgdec (rd : PReg)
  -- hash-to-point (`43_hash_to_point.md`)
  | mset (ra : XReg) (idx : Idx)
  | nset (ra : XReg) (idx : Idx)
  | h2p (rd : PReg)
  -- signature context and verifier (`44_signature_verify.md`)
  | load
  | store
  | getn
  | geth (rd : PReg)
  | gets (rd : PReg)
  | cset (ra : XReg) (idx : Idx)
  | verify (rd : XReg)
deriving DecidableEq, Repr

end Sys2Proof
end

