-- ==== Sys2Proof/WellFormed.lean ====
section
/-! DEFINITION. Which terms of `Instr` are commands (`30_encoding.md` rule R103). The bounds of the
register indexes are in their types; what is left to check is the range of `idx` in the three
commands that pick an element register with it. -/

namespace Sys2Proof

/-- The range check of rule R103: "`idx` may hold 0 to 511 in PSET and PGET, 0 to 3 in MSET and CSET,
0 to 7 in NSET". -/
def Instr.wellFormed : Instr → Bool
  | .fredu _ _ => true
  | .freds _ _ => true
  | .fadd _ _ _ => true
  | .fsub _ _ _ => true
  | .fmul _ _ _ => true
  | .fint _ _ => true
  | .pzero _ => true
  | .pset _ _ _ => true
  | .pget _ _ _ => true
  | .ntt _ _ => true
  | .intt _ _ => true
  | .hadam _ _ _ => true
  | .psub _ _ _ => true
  | .normsq _ _ => true
  | .peq _ _ _ => true
  | .pkdec _ => true
  | .sgdec _ => true
  | .mset _ idx => decide (idx.val < 4)
  | .nset _ idx => decide (idx.val < 8)
  | .h2p _ => true
  | .load => true
  | .store => true
  | .getn => true
  | .geth _ => true
  | .gets _ => true
  | .cset _ idx => decide (idx.val < 4)
  | .verify _ => true

/-- `i` is a command of the table. -/
abbrev Instr.WellFormed (i : Instr) : Prop := i.wellFormed = true

end Sys2Proof
end

