-- ==== Sys2Proof/Decode.lean ====
section
/-! DEFINITION. The command decoder and encoder of `30_encoding.md` (rules R100 to R108). A command
reaches the engine as one 32-bit value (rule R51), so the decoder reads a word, not bytes: no byte
order is involved (rule R79). -/

namespace Sys2Proof

/-- The six fields of a command word, as unsigned integers (rules R101, R106). -/
structure Fields where
  op : Nat
  rd : Nat
  ra : Nat
  rb : Nat
  z : Nat
  idx : Nat
deriving DecidableEq, Repr

/-- The fields at their fixed positions (rule R101): `op` 31:24, `rd` 23:20, `ra` 19:16, `rb` 15:12,
`z` 11:9, `idx` 8:0. -/
def fieldsOf (w : Word32) : Fields where
  op := w.toNat / 2 ^ 24
  rd := w.toNat / 2 ^ 20 % 16
  ra := w.toNat / 2 ^ 16 % 16
  rb := w.toNat / 2 ^ 12 % 16
  z := w.toNat / 2 ^ 9 % 8
  idx := w.toNat % 512

/-- The word of six fields, by the sum of rule R101. -/
def packFields (F : Fields) : Word32 :=
  BitVec.ofNat 32
    (F.op * 2 ^ 24 + F.rd * 2 ^ 20 + F.ra * 2 ^ 16 + F.rb * 2 ^ 12 + F.z * 2 ^ 9 + F.idx)

/-- Why a word is no command. Each of them is the one fault `F_ILLEGAL` (rules R108, R269). -/
inductive DecodeReject where
  /-- `op` is none of the 27 opcodes. -/
  | unknownOpcode
  /-- A field the command does not use is not 0, or `z` is not 0 (rules R101, R102). -/
  | nonzeroUnusedField
  /-- A field that indexes `p` holds 8 to 15 (rule R103). -/
  | polyIndexAboveSeven
  /-- `idx` is above the command's range (rule R103). -/
  | idxAboveRange
deriving DecidableEq, Repr

/-- The fields given must all be 0. -/
def requireZero (fs : List Nat) : Except DecodeReject Unit :=
  if fs.all (· == 0) then .ok () else .error .nonzeroUnusedField

/-- A field that indexes `x` or `f`: any of its 16 values (rule R103). -/
def reg16 (v : Nat) : Fin 16 := ⟨v % 16, Nat.mod_lt _ (by decide)⟩

/-- A field that indexes `p`: its top bit must be 0 (rule R103). -/
def polyReg (v : Nat) : Except DecodeReject PReg :=
  if h : v < 8 then .ok ⟨v, h⟩ else .error .polyIndexAboveSeven

/-- `idx` as a coefficient position (rule R103). -/
def coeffIdx (v : Nat) : Idx := ⟨v % 512, Nat.mod_lt _ (by decide)⟩

/-- `idx` as the position of an element register of a file of `n` (rule R103). -/
def elementIdx (n v : Nat) : Except DecodeReject Idx :=
  if v < n then .ok (coeffIdx v) else .error .idxAboveRange

/-- Format `Z` uses no field (rule R102). -/
def Fields.formatZ (F : Fields) : Except DecodeReject Unit :=
  requireZero [F.rd, F.ra, F.rb, F.z, F.idx]

/-- Format `D` uses `rd` (rule R102). -/
def Fields.formatD (F : Fields) : Except DecodeReject Unit :=
  requireZero [F.ra, F.rb, F.z, F.idx]

/-- Format `DA` uses `rd` and `ra` (rule R102). -/
def Fields.formatDA (F : Fields) : Except DecodeReject Unit :=
  requireZero [F.rb, F.z, F.idx]

/-- Format `DAB` uses `rd`, `ra` and `rb` (rule R102). -/
def Fields.formatDAB (F : Fields) : Except DecodeReject Unit :=
  requireZero [F.z, F.idx]

/-- Format `DAI` uses `rd`, `ra` and `idx` (rule R102). -/
def Fields.formatDAI (F : Fields) : Except DecodeReject Unit :=
  requireZero [F.rb, F.z]

/-- Format `AI` uses `ra` and `idx` (rule R102). -/
def Fields.formatAI (F : Fields) : Except DecodeReject Unit :=
  requireZero [F.rd, F.rb, F.z]

/-- The command of six fields, row by row of rule R105. -/
def decodeFields (F : Fields) : Except DecodeReject Instr :=
  match F.op with
  | 0x01 => do F.formatDA; .ok (.fredu (reg16 F.rd) (reg16 F.ra))
  | 0x02 => do F.formatDA; .ok (.freds (reg16 F.rd) (reg16 F.ra))
  | 0x03 => do F.formatDAB; .ok (.fadd (reg16 F.rd) (reg16 F.ra) (reg16 F.rb))
  | 0x04 => do F.formatDAB; .ok (.fsub (reg16 F.rd) (reg16 F.ra) (reg16 F.rb))
  | 0x05 => do F.formatDAB; .ok (.fmul (reg16 F.rd) (reg16 F.ra) (reg16 F.rb))
  | 0x06 => do F.formatDA; .ok (.fint (reg16 F.rd) (reg16 F.ra))
  | 0x10 => do F.formatD; let d ← polyReg F.rd; .ok (.pzero d)
  | 0x11 => do F.formatDAI; let d ← polyReg F.rd; .ok (.pset d (reg16 F.ra) (coeffIdx F.idx))
  | 0x12 => do F.formatDAI; let a ← polyReg F.ra; .ok (.pget (reg16 F.rd) a (coeffIdx F.idx))
  | 0x13 => do F.formatDA; let d ← polyReg F.rd; let a ← polyReg F.ra; .ok (.ntt d a)
  | 0x14 => do F.formatDA; let d ← polyReg F.rd; let a ← polyReg F.ra; .ok (.intt d a)
  | 0x15 => do
      F.formatDAB
      let d ← polyReg F.rd
      let a ← polyReg F.ra
      let b ← polyReg F.rb
      .ok (.hadam d a b)
  | 0x16 => do
      F.formatDAB
      let d ← polyReg F.rd
      let a ← polyReg F.ra
      let b ← polyReg F.rb
      .ok (.psub d a b)
  | 0x17 => do F.formatDA; let a ← polyReg F.ra; .ok (.normsq (reg16 F.rd) a)
  | 0x18 => do
      F.formatDAB
      let a ← polyReg F.ra
      let b ← polyReg F.rb
      .ok (.peq (reg16 F.rd) a b)
  | 0x20 => do F.formatD; let d ← polyReg F.rd; .ok (.pkdec d)
  | 0x21 => do F.formatD; let d ← polyReg F.rd; .ok (.sgdec d)
  | 0x30 => do F.formatAI; let i ← elementIdx 4 F.idx; .ok (.mset (reg16 F.ra) i)
  | 0x31 => do F.formatAI; let i ← elementIdx 8 F.idx; .ok (.nset (reg16 F.ra) i)
  | 0x32 => do F.formatD; let d ← polyReg F.rd; .ok (.h2p d)
  | 0x40 => do F.formatZ; .ok .load
  | 0x41 => do F.formatZ; .ok .store
  | 0x42 => do F.formatZ; .ok .getn
  | 0x43 => do F.formatD; let d ← polyReg F.rd; .ok (.geth d)
  | 0x44 => do F.formatD; let d ← polyReg F.rd; .ok (.gets d)
  | 0x45 => do F.formatAI; let i ← elementIdx 4 F.idx; .ok (.cset (reg16 F.ra) i)
  | 0x46 => do F.formatD; .ok (.verify (reg16 F.rd))
  | _ => .error .unknownOpcode

/-- Step 2 of rule R104: the command a word is, or why it is none. -/
def decode (w : Word32) : Except DecodeReject Instr := decodeFields (fieldsOf w)

/-- The fields of a command, from the same table (rules R101, R102, R105). -/
def encodeFields : Instr → Fields
  | .fredu d a => ⟨0x01, d, a, 0, 0, 0⟩
  | .freds d a => ⟨0x02, d, a, 0, 0, 0⟩
  | .fadd d a b => ⟨0x03, d, a, b, 0, 0⟩
  | .fsub d a b => ⟨0x04, d, a, b, 0, 0⟩
  | .fmul d a b => ⟨0x05, d, a, b, 0, 0⟩
  | .fint d a => ⟨0x06, d, a, 0, 0, 0⟩
  | .pzero d => ⟨0x10, d, 0, 0, 0, 0⟩
  | .pset d a k => ⟨0x11, d, a, 0, 0, k⟩
  | .pget d a k => ⟨0x12, d, a, 0, 0, k⟩
  | .ntt d a => ⟨0x13, d, a, 0, 0, 0⟩
  | .intt d a => ⟨0x14, d, a, 0, 0, 0⟩
  | .hadam d a b => ⟨0x15, d, a, b, 0, 0⟩
  | .psub d a b => ⟨0x16, d, a, b, 0, 0⟩
  | .normsq d a => ⟨0x17, d, a, 0, 0, 0⟩
  | .peq d a b => ⟨0x18, d, a, b, 0, 0⟩
  | .pkdec d => ⟨0x20, d, 0, 0, 0, 0⟩
  | .sgdec d => ⟨0x21, d, 0, 0, 0, 0⟩
  | .mset a i => ⟨0x30, 0, a, 0, 0, i⟩
  | .nset a i => ⟨0x31, 0, a, 0, 0, i⟩
  | .h2p d => ⟨0x32, d, 0, 0, 0, 0⟩
  | .load => ⟨0x40, 0, 0, 0, 0, 0⟩
  | .store => ⟨0x41, 0, 0, 0, 0, 0⟩
  | .getn => ⟨0x42, 0, 0, 0, 0, 0⟩
  | .geth d => ⟨0x43, d, 0, 0, 0, 0⟩
  | .gets d => ⟨0x44, d, 0, 0, 0, 0⟩
  | .cset a i => ⟨0x45, 0, a, 0, 0, i⟩
  | .verify d => ⟨0x46, d, 0, 0, 0, 0⟩

/-- The word of a command (rule R101). -/
def encode (i : Instr) : Word32 := packFields (encodeFields i)

/-- The host's reading of a table row: the command whose word is `w`, if it is one. Every row of the
table has 32 bits. -/
def decodeTableWord (nbits w : Nat) : Option Instr :=
  if nbits ≤ 32 ∧ w < 2 ^ nbits then
    match decode (BitVec.ofNat 32 w) with
    | .ok i => some i
    | .error _ => none
  else none

end Sys2Proof
end

