-- ==== Sys2Proof/Config.lean ====
section
/-! DEFINITION. The configuration record `Cfg` of `00_scope.md` rule R9, its constraints carried as
proofs, the instance the machine runs with (assumption log 1 and 2), and the free values
(assumption log 3 and 4). -/

namespace Sys2Proof

/-- How an absorbed element combines with the state element (rule R212). -/
inductive Absorb where
  | overwrite
  | add
deriving DecidableEq, Repr

/-- The configuration parameters of rule R9. Each constraint of the rule's table is a proof field, so
a value of this type is a legal configuration. -/
structure Cfg where
  /-- `L2_BOUND`, the strict bound of rule R244. -/
  l2Bound : Nat
  /-- `LOWBITS`, the number of low magnitude bits of rule R189. -/
  lowBits : Nat
  lowBits_pos : 1 ≤ lowBits
  lowBits_le : lowBits ≤ 12
  /-- `MAXMAG`, the largest magnitude of rule R189. -/
  maxMag : Nat
  low_le_maxMag : 2 ^ lowBits - 1 ≤ maxMag
  maxMag_lt : 2 * maxMag < q
  /-- `CONT`, the bit that continues a unary run (rule R189). -/
  cont : Bool
  /-- `PSI`, whose multiplicative order mod q is exactly 1024 (rule R153). -/
  psi : Fq
  psi_pow_1024 : psi.val ^ 1024 % q = 1
  psi_pow_512 : psi.val ^ 512 % q ≠ 1
  /-- `W`, the sponge width in elements (rule R210). -/
  w : Nat
  /-- `RATE0`, the index of the first rate element (rule R210). -/
  rate0 : Nat
  rate_le : rate0 + 8 ≤ w
  /-- `P_WIDE`, the modulus of the wide field (rule R18). -/
  pWide : Nat
  pWide_ge : 2 ^ 40 ≤ pWide
  pWide_le : pWide ≤ 2 ^ 64
  /-- `ABSORB` (rule R212). -/
  absorb : Absorb
  /-- `Permute`, a total function of the sponge state (rule R211). -/
  permute : Vector (Fin pWide) w → Vector (Fin pWide) w
  /-- `CommitHash`, from the 512 coefficients to the four limbs of a digest (rule R240). -/
  commitHash : Poly → Vector Word64 4

/-- An element of the wide field `Fw` (rule R18). -/
abbrev Cfg.Fw (g : Cfg) := Fin g.pWide

/-- A sponge state: `W` elements of the wide field (rule R210). -/
abbrev Cfg.Sponge (g : Cfg) := Vector (Fin g.pWide) g.w

/-- The wide-field element 0, of which a sponge state is first made (rule R214). -/
def Cfg.zeroFw (g : Cfg) : g.Fw := ⟨0, Nat.lt_of_lt_of_le (by decide) g.pWide_ge⟩

/-- The wide-field element of a 64-bit register. MSET, NSET and GETN only ever store values below
`P_WIDE` (rules R39, R40), on which this is the value itself. -/
def Cfg.toFw (g : Cfg) (v : Word64) : g.Fw :=
  ⟨v.toNat % g.pWide, Nat.mod_lt _ (Nat.lt_of_lt_of_le (by decide) g.pWide_ge)⟩

/-- The default `P_WIDE` of rule R9. -/
abbrev Config.pWide : Nat := 18446744069414584321

/-- The sponge permutation: nothing is known of it but that it is a function (rules R211, R275;
assumption log 2). -/
opaque Config.permute : Vector (Fin Config.pWide) 12 → Vector (Fin Config.pWide) 12

/-- The commitment hash: nothing is known of it but that it is a function (rules R240, R275;
assumption log 2). -/
opaque Config.commitHash : Poly → Vector Word64 4

/-- The configuration of the machine: rule R9's default in every field that has one, and the two
opaque functions (DESIGN CHOICE, assumption log 1). -/
def Config.cfg : Cfg where
  l2Bound := 34034726
  lowBits := 7
  lowBits_pos := by decide
  lowBits_le := by decide
  maxMag := 2047
  low_le_maxMag := by decide
  maxMag_lt := by decide
  cont := true
  psi := 49
  psi_pow_1024 := by decide +kernel
  psi_pow_512 := by decide +kernel
  w := 12
  rate0 := 4
  rate_le := by decide
  pWide := Config.pWide
  pWide_ge := by decide
  pWide_le := by decide
  absorb := .overwrite
  permute := Config.permute
  commitHash := Config.commitHash

/-- FREE VALUE: what the host's `n`-th read without a value returns, when it is a read of an `x`
register with no value (rule R52, U8; assumption log 3) or of a write-only or unlisted control
register number (D9, U9; assumption log 7). -/
opaque Config.freeWord : Nat → Word64

/-- FREE VALUE: what the host's `n`-th read without a value returns, when it is a read outside `BUF`
(D8, U9; assumption log 7). -/
opaque Config.freeByte : Nat → Byte

/-- FREE VALUE: what byte `a` of `BUF` holds after the `n`-th reset, until it is written (rule R60,
U11; assumption log 4). -/
opaque Config.powerOnByte : Nat → Nat → Byte

end Sys2Proof
end

