-- ==== Sys2Proof/Machine/State.lean ====
section
/-! DEFINITION. The state of Falcon512-CORE (`10_state.md`), the actions of the outside world that
wait in it, and the state right after reset (rule R60). A register with a valid bit is an `Option`:
`none` is the clear valid bit, "no value" (rules R34, R61). -/

namespace Sys2Proof.Machine

/-- The two forms of a polynomial that has a value (rule R38). -/
inductive Form where
  /-- `COEF`: entry `k` is the coefficient of x^k. -/
  | coef
  /-- `EVAL`: entry `k` is the value `E[k]` of rule R154. -/
  | eval
deriving DecidableEq, Repr

/-- A polynomial register: its tag and its 512 entries (rules R37, R38). An `EMPTY` register holds no
value, so it has no entries (rule R61). -/
inductive PolyReg where
  | empty
  | held (form : Form) (entries : Poly)
deriving DecidableEq, Repr

/-- The fault codes of rule R260. They are the engine's own faults: taking one is a NEXT state
(rule R261), never a stop of the model. -/
inductive FaultCode where
  /-- `F_ILLEGAL` (rule R269). -/
  | illegal
  /-- `F_UNINIT` (rule R262). -/
  | uninit
  /-- `F_FORM` (rule R264). -/
  | form
  /-- `F_NOSIG` (rule R267). -/
  | nosig
  /-- `F_RANGE` (rule R268). -/
  | range
deriving DecidableEq, Repr

/-- The decode errors: each row of rule R265 but `OK`, that is each pair of `EKIND` and `ESUB` that
`ERR` can hold besides (OK, 0). -/
inductive DecodeError where
  /-- (`E_LEN`, 0) -/
  | length
  /-- (`E_PK`, HDR) -/
  | pkHeader
  /-- (`E_PK`, RANGE) -/
  | pkRange
  /-- (`E_SIG`, HDR) -/
  | sigHeader
  /-- (`E_SIG`, OVERRUN) -/
  | sigOverrun
  /-- (`E_SIG`, MAXMAG) -/
  | sigMaxMag
  /-- (`E_SIG`, NEGZERO) -/
  | sigNegZero
  /-- (`E_SIG`, TRAIL) -/
  | sigTrail
deriving DecidableEq, Repr

/-- A loaded signature: the four parts of `SIG` (rule R42). -/
structure Signature where
  /-- `SIG.PKB`, the raw public-key blob. -/
  pkb : Vector Byte pkLen
  /-- `SIG.SGB`, the raw signature blob. -/
  sgb : Vector Byte sigLen
  /-- `SIG.H`, the decoded public-key polynomial, in coefficient form. -/
  h : Poly
  /-- `SIG.S2`, the decoded signature polynomial, in coefficient form. -/
  s2 : Poly
deriving DecidableEq, Repr

/-- The bytes of `BUF` that something has written since the last reset, by address, addresses rising.
An address that is not listed is one nothing has written (assumption log 4). -/
abbrev Memory := List Host.Cell

/-- What the outside world does to the engine: the four host operations of rule R55, and the hard
reset of the platform (rule R290). A command is a `writeCsr` of register 0x05 (rule R51). -/
inductive Input where
  | writeCsr (num : Nat) (v : Word64)
  | readCsr (num : Nat)
  | writeBuf (a : Nat) (b : Byte)
  | readBuf (a : Nat)
  | hardReset
deriving DecidableEq, Repr

/-- What a host read returned: a control register, zero-extended, or a byte of `BUF` (rule R55). -/
inductive Reply where
  | word (v : Word64)
  | byte (b : Byte)
deriving DecidableEq, Repr

/-- The architectural state of rule R31, and four fields of the model's own (INVENTORY.md, State). -/
structure State where
  /-- The integer registers `x[0..15]` (rule R32). -/
  x : Vector (Option Word64) 16
  /-- The field registers `f[0..15]` (rule R33). -/
  f : Vector (Option Fq) 16
  /-- The polynomial registers `p[0..7]` (rule R37). -/
  p : Vector PolyReg 8
  /-- The message registers `m[0..3]` (rule R39). -/
  m : Vector (Option Word64) 4
  /-- The nonce registers `n[0..7]` (rule R40). -/
  n : Vector (Option Word64) 8
  /-- The commitment registers `c[0..3]` (rule R41). -/
  c : Vector (Option Word64) 4
  /-- The signature context `SIG`; `some` exactly when `STATUS.SIGV` is 1 (rules R42, R47). -/
  sig : Option Signature
  /-- `STATUS.FAULT` and `STATUS.FCODE`: `none` is FAULT = 0 with FCODE = 0 (rule R47). -/
  fault : Option FaultCode
  /-- `ERR`: `none` is (OK, 0) (rule R48). -/
  err : Option DecodeError
  /-- `FCMD` (rule R49). -/
  fcmd : Word32
  /-- `BLEN` (rule R50). -/
  blen : BitVec 11
  /-- `BUF[0..1562]` (rule R70). -/
  buf : Memory
  /-- MODEL'S OWN: the actions of the outside world still to come, the next one first (assumption
  log 5). -/
  pending : List Input
  /-- MODEL'S OWN: what the host's latest read returned; `none` before the first (assumption log 6). -/
  reply : Option Reply
  /-- MODEL'S OWN: how many free values host reads have drawn (assumption log 3, 7). -/
  draws : Nat
  /-- MODEL'S OWN: how many resets there have been, which names the arbitrary contents of `BUF`
  (assumption log 4). -/
  resets : Nat
deriving DecidableEq, Repr

/-- The reasons for which a step stops the machine: none. Every command has a defined result on
every state (rules R271, R281, R298), the engine's faults are next states (rule R261), and an engine
with nothing to do is idle (rule R279). Safe: there is no stop in place of an effect. -/
inductive Fault
deriving DecidableEq, Repr

/-- The reasons for which a step gives no meaning to a command. -/
inductive Refusal where
  /-- Raised by `exec` for a command that has no meaning yet; no arm raises it. Safe. -/
  | notModelled (mnemonic : String)
deriving DecidableEq, Repr

/-- The state after reset (rule R60): no register has a value, every polynomial register is `EMPTY`,
there is no signature, every control register is 0, no byte of `BUF` is known; and nothing is
pending. -/
def State.reset : State where
  x := Vector.replicate 16 none
  f := Vector.replicate 16 none
  p := Vector.replicate 8 .empty
  m := Vector.replicate 4 none
  n := Vector.replicate 8 none
  c := Vector.replicate 4 none
  sig := none
  fault := none
  err := none
  fcmd := 0
  blen := 0
  buf := []
  pending := []
  reply := none
  draws := 0
  resets := 0

end Sys2Proof.Machine
end

