-- ==== Sys2Proof/Machine/Ops.lean ====
section
/-! DEFINITION. The named operations over registers and memory: register writes, `BUF`, taking a fault
(rule R261), ending a command (rule R104), and reset (rules R60, R290). There is no return from a
fault: the only way on is reset (rule R273). -/

namespace Sys2Proof.Machine

/-! ### Registers: `r <- v` writes the value and sets the valid bit (rules R14, R34) -/

def State.setX (s : State) (d : XReg) (v : Word64) : State :=
  { s with x := s.x.set d.val (some v) d.isLt }

def State.setF (s : State) (d : FReg) (v : Fq) : State :=
  { s with f := s.f.set d.val (some v) d.isLt }

def State.setP (s : State) (d : PReg) (form : Form) (entries : Poly) : State :=
  { s with p := s.p.set d.val (.held form entries) d.isLt }

def State.setM (s : State) (i : Fin 4) (v : Word64) : State :=
  { s with m := s.m.set i.val (some v) i.isLt }

def State.setN (s : State) (i : Fin 8) (v : Word64) : State :=
  { s with n := s.n.set i.val (some v) i.isLt }

def State.setC (s : State) (i : Fin 4) (v : Word64) : State :=
  { s with c := s.c.set i.val (some v) i.isLt }

/-! ### `BUF` (`20_memory.md`) -/

/-- The canonical form: addresses strictly rising and inside `BUF` (rule R70). What an unlisted
address reads as is no byte, so no entry can equal it. -/
abbrev Memory.wf (b : Memory) : Prop :=
  b.Pairwise (fun c d => c.1 < d.1) ∧ ∀ c ∈ b, c.1 < serLen

/-- The byte written last at `a`, if one was. -/
def Memory.read : Memory → Nat → Option Byte
  | [], _ => none
  | (k, v) :: t, a => if k = a then some v else Memory.read t a

/-- Write one byte. -/
def Memory.write : Memory → Nat → Byte → Memory
  | [], a, v => [(a, v)]
  | (k, u) :: t, a, v =>
    if a < k then (a, v) :: (k, u) :: t
    else if a = k then (a, v) :: t
    else (k, u) :: Memory.write t a v

/-- The cells of a byte sequence that stands at `a`. -/
def cellsAt : Nat → List Byte → Memory
  | _, [] => []
  | a, v :: vs => (a, v) :: cellsAt (a + 1) vs

/-- `MemWrite(a, n, bytes)` with `n` the number of bytes (rule R15): the cells below, the bytes, the
cells above. -/
def Memory.writeBytes (b : Memory) (a : Nat) (bytes : List Byte) : Memory :=
  b.filter (fun c => c.1 < a) ++ cellsAt a bytes ++ b.filter (fun c => a + bytes.length ≤ c.1)

/-- `BUF[a]`: the byte written last, or the arbitrary byte that has stood there since reset (rule R60). -/
def State.bufByte (s : State) (a : Nat) : Byte :=
  match s.buf.read a with
  | some v => v
  | none => Config.powerOnByte s.resets a

/-- `n` bytes from `a`, with `whole` what a single byte reads as: the cells are walked once, and an
address the next cell does not stand for is read on its own. -/
def readSpan (whole : Nat → Byte) : Nat → Nat → Memory → List Byte
  | 0, _, _ => []
  | n + 1, a, [] => whole a :: readSpan whole n (a + 1) []
  | n + 1, a, (k, v) :: t =>
    if k = a then v :: readSpan whole n (a + 1) t
    else whole a :: readSpan whole n (a + 1) ((k, v) :: t)

theorem readSpan_length (whole : Nat → Byte) (n a : Nat) (b : Memory) :
    (readSpan whole n a b).length = n := by
  induction n generalizing a b with
  | zero => simp [readSpan]
  | succ n ih =>
    cases b with
    | nil => simp [readSpan, ih]
    | cons c t => simp only [readSpan]; split <;> simp [ih]

/-- `MemRead(a, n)` (rule R15); byte `k` is `BUF[a + k]` (`bufBytes_eq`). -/
def State.bufBytes (s : State) (a n : Nat) : List Byte :=
  readSpan s.bufByte n a (s.buf.dropWhile fun c => c.1 < a)

/-- The same bytes as a vector, for the raw blobs of `SIG`. -/
def State.bufVector (s : State) (a n : Nat) : Vector Byte n :=
  ⟨(s.bufBytes a n).toArray, by simp [State.bufBytes, readSpan_length]⟩

/-- `MemWrite(a, n, bytes)` (rule R15). -/
def State.writeBufBytes (s : State) (a : Nat) (bytes : List Byte) : State :=
  { s with buf := s.buf.writeBytes a bytes }

/-! ### Faults and the end of a command -/

/-- `raise Fault(code)` while the word `w` is executed: `STATUS.FAULT`, `STATUS.FCODE` and `FCMD` are
written and nothing else changes (rule R261). -/
def takeFault (code : FaultCode) (w : Word32) (s : State) : State :=
  { s with fault := some code, fcmd := w }

/-- The end of the command whose word is `w`, issued in `s` (rule R104): its effect, or the fault of
the first check that failed. -/
def finish (w : Word32) (s : State) (r : Except FaultCode State) :
    Host.Outcome State Fault Refusal :=
  match r with
  | .ok t => .next t
  | .error code => .next (takeFault code w s)

/-! ### The host's replies -/

/-- A host read returns `r` and changes nothing else (assumption log 6). -/
def State.answer (s : State) (r : Reply) : State := { s with reply := some r }

/-- A host read of something without a value returns `r`, made from the counter of the free values,
and moves the counter on (rule R52, D8, D9, U8, U9; assumption log 3, 7). -/
def State.answerFree (s : State) (r : Nat → Reply) : State :=
  { s with reply := some (r s.draws), draws := s.draws + 1 }

/-! ### Reset -/

/-- Reset, hard or soft (rules R53, R60, R290): the engine is in the state after reset. The host's
actions still to come and its latest reply are not the engine's and stay; the counters of the free
values go on, so that `BUF` and later free reads are arbitrary anew. -/
def State.afterReset (s : State) : State :=
  { State.reset with
    pending := s.pending
    reply := s.reply
    draws := s.draws
    resets := s.resets + 1 }

end Sys2Proof.Machine
end

