-- ==== Sys2Proof/Machine/Operands.lean ====
section
/-! DEFINITION. Reading a command's operands, with the checks that guard each read: `F_UNINIT` for a
register with no value (rule R262), `F_FORM` for a polynomial of the wrong form (rule R264),
`F_NOSIG` for an absent signature (rule R267), `F_RANGE` for a value that is no wide-field element
(rule R268), `F_ILLEGAL` for an `idx` above its range (rule R269). A command reads every source with
these before it writes (rule R35), in the order its rule lists the checks. -/

namespace Sys2Proof.Machine

/-- The value of a register with a valid bit, or `F_UNINIT`. -/
def valueOf {α : Type} : Option α → Except FaultCode α
  | some v => .ok v
  | none => .error .uninit

def State.readX (s : State) (a : XReg) : Except FaultCode Word64 := valueOf s.x[a]

def State.readF (s : State) (a : FReg) : Except FaultCode Fq := valueOf s.f[a]

/-- The values of all registers of a file, or `F_UNINIT` if one has none. -/
def allValues {n : Nat} (r : Vector (Option Word64) n) : Except FaultCode (Vector Word64 n) :=
  if r.toList.all Option.isSome then .ok (tabulate n fun i => r[i].getD 0) else .error .uninit

/-- The form and entries of a polynomial register, or `F_UNINIT` if it is `EMPTY`. -/
def State.readP (s : State) (a : PReg) : Except FaultCode (Form × Poly) :=
  match s.p[a] with
  | .empty => .error .uninit
  | .held form entries => .ok (form, entries)

/-- The entries of a polynomial register that must hold the form given: `F_UNINIT` if it is `EMPTY`,
else `F_FORM` if it holds the other form. -/
def State.readForm (s : State) (form : Form) (a : PReg) : Except FaultCode Poly := do
  let r ← s.readP a
  if r.1 = form then .ok r.2 else .error .form

/-- The common form and the entries of two polynomial registers: `F_UNINIT` if the first, then the
second, is `EMPTY`, then `F_FORM` if the forms differ. -/
def State.readPair (s : State) (a b : PReg) : Except FaultCode (Form × Poly × Poly) := do
  let u ← s.readP a
  let v ← s.readP b
  if u.1 = v.1 then .ok (u.1, u.2, v.2) else .error .form

/-- The signature context, or `F_NOSIG`. -/
def State.readSig (s : State) : Except FaultCode Signature :=
  match s.sig with
  | some sg => .ok sg
  | none => .error .nosig

/-- The check `v < P_WIDE`, or `F_RANGE`. -/
def requireWide (g : Cfg) (v : Word64) : Except FaultCode Unit :=
  if v.toNat < g.pWide then .ok () else .error .range

/-- The element register that `idx` picks in a file of `n`. A word with a larger `idx` is illegal
(rule R103), so a term of `Instr` that is not well formed ends in `F_ILLEGAL`, as its word does. -/
def elementReg (n : Nat) (idx : Idx) : Except FaultCode (Fin n) :=
  if h : idx.val < n then .ok ⟨idx.val, h⟩ else .error .illegal

end Sys2Proof.Machine
end

