-- ==== Sys2Proof/Machine/Codec.lean ====
section
/-! DEFINITION. The polynomial codec (`42_codec.md`): the two decoder functions `pk_decode` (rule R184)
and `sig_decode` (rule R190), and the commands PKDEC and SGDEC. The decoders consume the bit string of
rule R13 from the front, so "a position inside the string" is "a list not yet empty", and no read can
go past the end. -/

namespace Sys2Proof.Machine

/-- The bits of a byte, most significant first (rule R13). -/
def byteBits (b : Byte) : List Bool :=
  [b.getLsbD 7, b.getLsbD 6, b.getLsbD 5, b.getLsbD 4, b.getLsbD 3, b.getLsbD 2, b.getLsbD 1,
    b.getLsbD 0]

/-- The bit string of a byte sequence (rule R13). -/
def bitString (bytes : List Byte) : List Bool := bytes.flatMap byteBits

/-- The unsigned integer of a bit string, most significant bit first (rule R13). -/
def bitsValue (bs : List Bool) : Nat := bs.foldl (fun v b => 2 * v + b.toNat) 0

/-- `n` coefficients of 14 bits each, in index order; the first value that is not below q ends the
decode (rules R183, R184). -/
def unpackCoeffs : Nat → List Bool → Except DecodeError (List Fq)
  | 0, _ => .ok []
  | n + 1, bs =>
    if q ≤ bitsValue (bs.take 14) then .error .pkRange
    else do
      let cs ← unpackCoeffs n (bs.drop 14)
      .ok (Fq.ofNat (bitsValue (bs.take 14)) :: cs)

/-- `pk_decode` (rule R184). -/
def pkDecode (bytes : List Byte) : Except DecodeError Poly :=
  if bytes.length ≠ pkLen then .error .length
  else if bytes.headD 0 ≠ pkHeader then .error .pkHeader
  else do
    let cs ← unpackCoeffs ringDegree (bitString (bytes.drop 1))
    .ok (Poly.ofList cs)

/-- The unary run of a coefficient code, with the magnitude so far (rules R189, R190): the terminator
ends it; every bit equal to `CONT` adds 2^LOWBITS. Gives the magnitude and the bits after the code. -/
def readRun (g : Cfg) : Nat → List Bool → Except DecodeError (Nat × List Bool)
  | _, [] => .error .sigOverrun
  | mag, b :: bs =>
    if b ≠ g.cont then .ok (mag, bs)
    else if g.maxMag < mag + 2 ^ g.lowBits then .error .sigMaxMag
    else readRun g (mag + 2 ^ g.lowBits) bs

/-- The field element of a sign bit and a magnitude (rule R189). -/
def signedCoeff (sign : Bool) (mag : Nat) : Fq :=
  if sign then Fq.ofNat (q - mag) else Fq.ofNat mag

/-- One coefficient code: sign bit, `LOWBITS` low bits, unary run (rules R189, R190). Gives the
coefficient and the bits after the code. -/
def readCode (g : Cfg) (bs : List Bool) : Except DecodeError (Fq × List Bool) :=
  let front := bs.take (1 + g.lowBits)
  if front.length < 1 + g.lowBits then .error .sigOverrun
  else do
    let run ← readRun g (bitsValue front.tail) (bs.drop (1 + g.lowBits))
    if front.headD false ∧ run.1 = 0 then .error .sigNegZero
    else .ok (signedCoeff (front.headD false) run.1, run.2)

/-- `n` coefficient codes back to back, in index order (rule R190). -/
def readCodes (g : Cfg) : Nat → List Bool → Except DecodeError (List Fq × List Bool)
  | 0, bs => .ok ([], bs)
  | n + 1, bs => do
    let code ← readCode g bs
    let codes ← readCodes g n code.2
    .ok (code.1 :: codes.1, codes.2)

/-- `sig_decode` (rule R190). The nonce, bytes 1 to 40, is not examined (rule R187). -/
def sigDecode (g : Cfg) (bytes : List Byte) : Except DecodeError Poly :=
  if bytes.length ≠ sigLen then .error .length
  else if bytes.headD 0 ≠ sigHeader then .error .sigHeader
  else do
    let codes ← readCodes g ringDegree (bitString (bytes.drop 41))
    if codes.2.any id then .error .sigTrail else .ok (Poly.ofList codes.1)

/-- The end of PKDEC and SGDEC: on success the polynomial register and `ERR` are written, on an error
`ERR` alone (rules R186, R192, R266). -/
def putDecoded (d : PReg) (s : State) : Except DecodeError Poly → State
  | .ok c => { s.setP d .coef c with err := none }
  | .error e => { s with err := some e }

/-- PKDEC `pd`: with another `BLEN` than 897, `BUF` is not read (rule R186). -/
def execPkdec (d : PReg) (s : State) : Host.Outcome State Fault Refusal :=
  finish (encode (.pkdec d)) s
    (.ok (putDecoded d s
      (if s.blen.toNat ≠ pkLen then .error .length else pkDecode (s.bufBytes 0 pkLen))))

/-- SGDEC `pd` over any configuration: with another `BLEN` than 666, `BUF` is not read (rule R192). -/
def sgdecWith (g : Cfg) (d : PReg) (s : State) : Host.Outcome State Fault Refusal :=
  finish (encode (.sgdec d)) s
    (.ok (putDecoded d s
      (if s.blen.toNat ≠ sigLen then .error .length else sigDecode g (s.bufBytes 0 sigLen))))

/-- SGDEC `pd` (rule R192). -/
def execSgdec (d : PReg) (s : State) : Host.Outcome State Fault Refusal := sgdecWith Config.cfg d s

end Sys2Proof.Machine
end

