-- ==== Sys2Proof/Machine/HashToPoint.lean ====
section
/-! DEFINITION. Hash-to-point (`43_hash_to_point.md`): the sponge around the opaque permutation
(rules R210 to R214) and the commands MSET, NSET, H2P. The sponge state is a local value, never state
(rule R44). -/

namespace Sys2Proof.Machine

/-- `absorb(old, v)` (rule R212). -/
def absorbElement (g : Cfg) (old v : g.Fw) : g.Fw :=
  match g.absorb with
  | .overwrite => v
  | .add => ⟨(old.val + v.val) % g.pWide, Nat.mod_lt _ (Nat.lt_of_le_of_lt (Nat.zero_le _) v.isLt)⟩

/-- Absorb `k` elements, element `j` into `st[RATE0+j]`; the other positions keep their values
(rules R212, R214). -/
def absorbInto (g : Cfg) {k : Nat} (st : g.Sponge) (vs : Vector g.Fw k) : g.Sponge :=
  tabulate g.w fun i =>
    if h : g.rate0 ≤ i.val ∧ i.val - g.rate0 < k then absorbElement g st[i] vs[i.val - g.rate0]
    else st[i]

/-- The eight rate elements as raw integers, each reduced mod q (rule R213). -/
def squeezeRate (g : Cfg) (st : g.Sponge) : List Fq :=
  List.ofFn fun j : Fin 8 =>
    Fq.ofNat (st[g.rate0 + j.val]'(Nat.lt_of_lt_of_le (Nat.add_lt_add_left j.isLt _) g.rate_le)).val

/-- `n` squeeze rounds: permute, then read the rate (rule R214). -/
def squeezeRounds (g : Cfg) : Nat → g.Sponge → List Fq
  | 0, _ => []
  | n + 1, st => squeezeRate g (g.permute st) ++ squeezeRounds g n (g.permute st)

/-- `h2p(M, NN)` (rule R214). -/
def hashToPoint (g : Cfg) (message : Vector Word64 4) (nonce : Vector Word64 8) : Poly :=
  let zero : g.Sponge := Vector.replicate g.w g.zeroFw
  let afterNonce := g.permute (absorbInto g zero (tabulate 8 fun j => g.toFw nonce[j]))
  let afterMessage := absorbInto g afterNonce (tabulate 4 fun j => g.toFw message[j])
  Poly.ofList (squeezeRounds g 64 afterMessage)

/-- MSET `m<i>, xa` over any configuration (rule R216). -/
def msetWith (g : Cfg) (a : XReg) (idx : Idx) (s : State) : Host.Outcome State Fault Refusal :=
  finish (encode (.mset a idx)) s do
    let i ← elementReg 4 idx
    let v ← s.readX a
    requireWide g v
    .ok (s.setM i v)

/-- MSET `m<i>, xa` (rule R216). -/
def execMset (a : XReg) (idx : Idx) (s : State) : Host.Outcome State Fault Refusal :=
  msetWith Config.cfg a idx s

/-- NSET `n<i>, xa` over any configuration (rule R217). -/
def nsetWith (g : Cfg) (a : XReg) (idx : Idx) (s : State) : Host.Outcome State Fault Refusal :=
  finish (encode (.nset a idx)) s do
    let i ← elementReg 8 idx
    let v ← s.readX a
    requireWide g v
    .ok (s.setN i v)

/-- NSET `n<i>, xa` (rule R217). -/
def execNset (a : XReg) (idx : Idx) (s : State) : Host.Outcome State Fault Refusal :=
  nsetWith Config.cfg a idx s

/-- H2P `pd` over any configuration (rule R218). -/
def h2pWith (g : Cfg) (d : PReg) (s : State) : Host.Outcome State Fault Refusal :=
  finish (encode (.h2p d)) s do
    let message ← allValues s.m
    let nonce ← allValues s.n
    .ok (s.setP d .coef (hashToPoint g message nonce))

/-- H2P `pd` (rule R218). -/
def execH2p (d : PReg) (s : State) : Host.Outcome State Fault Refusal := h2pWith Config.cfg d s

end Sys2Proof.Machine
end

