-- ==== Sys2Proof/Machine/Field.lean ====
section
/-! DEFINITION. Field arithmetic mod q (`40_field.md`): the functions of rules R131 and R138 and the
commands FREDU, FREDS, FADD, FSUB, FMUL, FINT. Each is computed exactly on integers and reduced once
at the end. -/

namespace Sys2Proof.Machine

/-- Construct-and-reduce of an unsigned 64-bit integer (rules R132, R138). -/
def reduceUnsigned (v : Word64) : Fq := Fq.ofNat v.toNat

/-- Construct-and-reduce of a two's-complement 64-bit integer, with the mathematical `mod`
(rules R133, R138). -/
def reduceSigned (v : Word64) : Fq := Fq.ofNat (v.toInt % (q : Int)).toNat

/-- `fadd` of rule R131. -/
def fieldAdd (a b : Fq) : Fq := Fq.ofNat (a.val + b.val)

/-- `fsub` of rule R131, with the mathematical `mod` of rule R11. -/
def fieldSub (a b : Fq) : Fq := Fq.ofNat (((a.val : Int) - (b.val : Int)) % (q : Int)).toNat

/-- `fmul` of rule R131. -/
def fieldMul (a b : Fq) : Fq := Fq.ofNat (a.val * b.val)

/-- FREDU `fd, xa` (rule R132). -/
def execFredu (d : FReg) (a : XReg) (s : State) : Host.Outcome State Fault Refusal :=
  finish (encode (.fredu d a)) s do
    let v ← s.readX a
    .ok (s.setF d (reduceUnsigned v))

/-- FREDS `fd, xa` (rule R133). -/
def execFreds (d : FReg) (a : XReg) (s : State) : Host.Outcome State Fault Refusal :=
  finish (encode (.freds d a)) s do
    let v ← s.readX a
    .ok (s.setF d (reduceSigned v))

/-- FADD `fd, fa, fb` (rule R134). -/
def execFadd (d a b : FReg) (s : State) : Host.Outcome State Fault Refusal :=
  finish (encode (.fadd d a b)) s do
    let u ← s.readF a
    let v ← s.readF b
    .ok (s.setF d (fieldAdd u v))

/-- FSUB `fd, fa, fb` (rule R135). -/
def execFsub (d a b : FReg) (s : State) : Host.Outcome State Fault Refusal :=
  finish (encode (.fsub d a b)) s do
    let u ← s.readF a
    let v ← s.readF b
    .ok (s.setF d (fieldSub u v))

/-- FMUL `fd, fa, fb` (rule R136). -/
def execFmul (d a b : FReg) (s : State) : Host.Outcome State Fault Refusal :=
  finish (encode (.fmul d a b)) s do
    let u ← s.readF a
    let v ← s.readF b
    .ok (s.setF d (fieldMul u v))

/-- FINT `xd, fa`: the canonical representative, zero-extended (rule R137). -/
def execFint (d : XReg) (a : FReg) (s : State) : Host.Outcome State Fault Refusal :=
  finish (encode (.fint d a)) s do
    let u ← s.readF a
    .ok (s.setX d (BitVec.ofNat 64 u.val))

end Sys2Proof.Machine
end

