-- ==== Sys2Proof/Machine/Ring.lean ====
section
/-! DEFINITION. The ring unit (`41_ring.md`): the functions of rules R151 to R155, and the commands
PZERO, PSET, PGET, NTT, INTT, HADAM, PSUB, NORMSQ, PEQ. NTT and INTT depend on the configuration's
`PSI`; each has a form over any configuration, which the command takes at the machine's. -/

namespace Sys2Proof.Machine

/-- The value mod q of the polynomial with the coefficients given at the point `r`:
c[0] + r·(c[1] + r·(c[2] + …)). -/
def polyAt (r : Nat) : List Fq → Nat
  | [] => 0
  | c :: cs => (c.val + r * polyAt r cs) % q

/-- `ntt(P)` of rule R154: entry `k` is the value of `P` at `PSI^(2k+1)`. -/
def nttOf (g : Cfg) (c : Poly) : Poly :=
  tabulate ringDegree fun k => Fq.ofNat (polyAt (g.psi.val ^ (2 * k.val + 1) % q) c.toList)

/-- `PSI^(−1)` mod q: the order of `PSI` is 1024 (rule R153), so its inverse is its 1023rd power. -/
def psiInverse (g : Cfg) : Nat := g.psi.val ^ 1023 % q

/-- `NINV` = 512^(−1) mod q (rule R155). -/
def nInverse : Nat := 12265

/-- `intt(E)` of rule R155. With `y` = `PSI^(−i)`, the sum over k of E[k]·y^(2k+1) is y times the value
at y² of the polynomial with the coefficients E. -/
def inttOf (g : Cfg) (e : Poly) : Poly :=
  tabulate ringDegree fun i =>
    let y := psiInverse g ^ i.val % q
    Fq.ofNat (nInverse * (y * polyAt (y * y % q) e.toList))

/-- The pointwise product (rule R161). -/
def hadamardOf (a b : Poly) : Poly := tabulate ringDegree fun k => fieldMul a[k] b[k]

/-- The pointwise difference (rule R162). -/
def pointwiseSub (a b : Poly) : Poly := tabulate ringDegree fun k => fieldSub a[k] b[k]

/-- The centered representative, in [−6144, 6144] (rule R151). -/
def center (v : Fq) : Int := if v.val ≤ 6144 then v.val else (v.val : Int) - 12289

/-- The squared centered norm, an exact natural number (rule R152). -/
def normSquared (c : Poly) : Nat := (c.toList.map fun v => (center v * center v).toNat).sum

/-- PZERO `pd` (rule R156). -/
def execPzero (d : PReg) (s : State) : Host.Outcome State Fault Refusal :=
  finish (encode (.pzero d)) s (.ok (s.setP d .coef Poly.zero))

/-- PSET `pd, fa, idx` (rule R157). -/
def execPset (d : PReg) (a : FReg) (k : Idx) (s : State) : Host.Outcome State Fault Refusal :=
  finish (encode (.pset d a k)) s do
    let c ← s.readForm .coef d
    let v ← s.readF a
    .ok (s.setP d .coef (c.set k.val v k.isLt))

/-- PGET `fd, pa, idx`: the tag may be either (rule R158). -/
def execPget (d : FReg) (a : PReg) (k : Idx) (s : State) : Host.Outcome State Fault Refusal :=
  finish (encode (.pget d a k)) s do
    let r ← s.readP a
    .ok (s.setF d (r.2[k.val]'k.isLt))

/-- NTT `pd, pa` over any configuration (rule R159). -/
def nttWith (g : Cfg) (d a : PReg) (s : State) : Host.Outcome State Fault Refusal :=
  finish (encode (.ntt d a)) s do
    let c ← s.readForm .coef a
    .ok (s.setP d .eval (nttOf g c))

/-- NTT `pd, pa` (rule R159). -/
def execNtt (d a : PReg) (s : State) : Host.Outcome State Fault Refusal := nttWith Config.cfg d a s

/-- INTT `pd, pa` over any configuration (rule R160). -/
def inttWith (g : Cfg) (d a : PReg) (s : State) : Host.Outcome State Fault Refusal :=
  finish (encode (.intt d a)) s do
    let e ← s.readForm .eval a
    .ok (s.setP d .coef (inttOf g e))

/-- INTT `pd, pa` (rule R160). -/
def execIntt (d a : PReg) (s : State) : Host.Outcome State Fault Refusal := inttWith Config.cfg d a s

/-- HADAM `pd, pa, pb` (rule R161). -/
def execHadam (d a b : PReg) (s : State) : Host.Outcome State Fault Refusal :=
  finish (encode (.hadam d a b)) s do
    let u ← s.readForm .eval a
    let v ← s.readForm .eval b
    .ok (s.setP d .eval (hadamardOf u v))

/-- PSUB `pd, pa, pb`: two `COEF` or two `EVAL` operands (rule R162). -/
def execPsub (d a b : PReg) (s : State) : Host.Outcome State Fault Refusal :=
  finish (encode (.psub d a b)) s do
    let r ← s.readPair a b
    .ok (s.setP d r.1 (pointwiseSub r.2.1 r.2.2))

/-- NORMSQ `xd, pa` (rule R163). -/
def execNormsq (d : XReg) (a : PReg) (s : State) : Host.Outcome State Fault Refusal :=
  finish (encode (.normsq d a)) s do
    let c ← s.readForm .coef a
    .ok (s.setX d (BitVec.ofNat 64 (normSquared c)))

/-- PEQ `xd, pa, pb` (rule R164). -/
def execPeq (d : XReg) (a b : PReg) (s : State) : Host.Outcome State Fault Refusal :=
  finish (encode (.peq d a b)) s do
    let r ← s.readPair a b
    .ok (s.setX d (if r.2.1.toList = r.2.2.toList then 1 else 0))

end Sys2Proof.Machine
end

