-- ==== Sys2Proof/Machine/Verifier.lean ====
section
/-! DEFINITION. The signature context and the verifier (`44_signature_verify.md`): the functions of
rules R235 and R245 and the commands LOAD, STORE, GETN, GETH, GETS, CSET, VERIFY. -/

namespace Sys2Proof.Machine

/-- The integer of a byte sequence, least significant byte first (rule R77). -/
def littleEndian : List Byte → Nat
  | [] => 0
  | b :: bs => b.toNat + 256 * littleEndian bs

/-- `nonce_elems(SGB[1..41))`: element `j` is the five little-endian bytes from 1 + 5j (rule R235). -/
def nonceElements (sgb : Vector Byte sigLen) : Vector Word64 8 :=
  tabulate 8 fun j =>
    BitVec.ofNat 64 (littleEndian ((sgb.toList.drop (1 + 5 * j.val)).take 5))

/-- The candidate first polynomial `s1` (rule R243). -/
def recoverS1 (g : Cfg) (cp s2 h : Poly) : Poly :=
  inttOf g (pointwiseSub (nttOf g cp) (hadamardOf (nttOf g s2) (nttOf g h)))

/-- `verify_fn` (rule R245): the commitment gate, then the strict norm bound. -/
def verifyFn (g : Cfg) (h s2 : Poly) (sgb : Vector Byte sigLen) (message commitment : Vector Word64 4) :
    Bool :=
  if (g.commitHash h).toList ≠ commitment.toList then false
  else
    let cp := hashToPoint g message (nonceElements sgb)
    decide (normSquared (recoverS1 g cp s2 h) + normSquared s2 < g.l2Bound)

/-- What LOAD makes of `BUF`: the public key is decoded first, and the signature blob is not examined
if that fails (rule R231). -/
def decodeContext (g : Cfg) (s : State) : Except DecodeError Signature := do
  let pkb := s.bufVector 0 pkLen
  let sgb := s.bufVector pkLen sigLen
  let h ← pkDecode pkb.toList
  let s2 ← sigDecode g sgb.toList
  .ok { pkb := pkb, sgb := sgb, h := h, s2 := s2 }

/-- The end of LOAD: the whole context and `ERR`, or no context and `ERR` (rules R231, R232). -/
def putContext (s : State) : Except DecodeError Signature → State
  | .ok sg => { s with sig := some sg, err := none }
  | .error e => { s with sig := none, err := some e }

/-- LOAD over any configuration: with another `BLEN` than 1563, `BUF` is not read (rule R231). -/
def loadWith (g : Cfg) (s : State) : Host.Outcome State Fault Refusal :=
  finish (encode .load) s
    (.ok (putContext s
      (if s.blen.toNat ≠ serLen then .error .length else decodeContext g s)))

/-- LOAD (rule R231). -/
def execLoad (s : State) : Host.Outcome State Fault Refusal := loadWith Config.cfg s

/-- STORE: the raw bytes LOAD kept, and `BLEN` (rule R233). -/
def execStore (s : State) : Host.Outcome State Fault Refusal :=
  finish (encode .store) s do
    let sg ← s.readSig
    .ok { s.writeBufBytes 0 (sg.pkb.toList ++ sg.sgb.toList) with blen := BitVec.ofNat 11 serLen }

/-- GETN: all eight nonce registers (rule R236). -/
def execGetn (s : State) : Host.Outcome State Fault Refusal :=
  finish (encode .getn) s do
    let sg ← s.readSig
    .ok { s with n := tabulate 8 fun j => some (nonceElements sg.sgb)[j] }

/-- GETH `pd` (rule R237). -/
def execGeth (d : PReg) (s : State) : Host.Outcome State Fault Refusal :=
  finish (encode (.geth d)) s do
    let sg ← s.readSig
    .ok (s.setP d .coef sg.h)

/-- GETS `pd` (rule R238). -/
def execGets (d : PReg) (s : State) : Host.Outcome State Fault Refusal :=
  finish (encode (.gets d)) s do
    let sg ← s.readSig
    .ok (s.setP d .coef sg.s2)

/-- CSET `c<i>, xa`: any 64-bit value (rule R239). -/
def execCset (a : XReg) (idx : Idx) (s : State) : Host.Outcome State Fault Refusal :=
  finish (encode (.cset a idx)) s do
    let i ← elementReg 4 idx
    let v ← s.readX a
    .ok (s.setC i v)

/-- The verdict of VERIFY: reject when no signature is loaded (rule R246). -/
def verdict (g : Cfg) (sig : Option Signature) (message commitment : Vector Word64 4) : Bool :=
  match sig with
  | none => false
  | some sg => verifyFn g sg.h sg.s2 sg.sgb message commitment

/-- VERIFY `xd` over any configuration (rule R246). -/
def verifyWith (g : Cfg) (d : XReg) (s : State) : Host.Outcome State Fault Refusal :=
  finish (encode (.verify d)) s do
    let message ← allValues s.m
    let commitment ← allValues s.c
    .ok (s.setX d (if verdict g s.sig message commitment then 1 else 0))

/-- VERIFY `xd` (rule R246). -/
def execVerify (d : XReg) (s : State) : Host.Outcome State Fault Refusal :=
  verifyWith Config.cfg d s

end Sys2Proof.Machine
end

