-- ==== Sys2Proof/Machine/Dispatch.lean ====
section
/-! DEFINITION. One arm per command of rule R105. -/

namespace Sys2Proof.Machine

def exec (i : Instr) (s : State) : Host.Outcome State Fault Refusal :=
  match i with
  | .fredu d a => Sys2Proof.Machine.execFredu d a s
  | .freds d a => Sys2Proof.Machine.execFreds d a s
  | .fadd d a b => Sys2Proof.Machine.execFadd d a b s
  | .fsub d a b => Sys2Proof.Machine.execFsub d a b s
  | .fmul d a b => Sys2Proof.Machine.execFmul d a b s
  | .fint d a => Sys2Proof.Machine.execFint d a s
  | .pzero d => Sys2Proof.Machine.execPzero d s
  | .pset d a k => Sys2Proof.Machine.execPset d a k s
  | .pget d a k => Sys2Proof.Machine.execPget d a k s
  | .ntt d a => Sys2Proof.Machine.execNtt d a s
  | .intt d a => Sys2Proof.Machine.execIntt d a s
  | .hadam d a b => Sys2Proof.Machine.execHadam d a b s
  | .psub d a b => Sys2Proof.Machine.execPsub d a b s
  | .normsq d a => Sys2Proof.Machine.execNormsq d a s
  | .peq d a b => Sys2Proof.Machine.execPeq d a b s
  | .pkdec d => Sys2Proof.Machine.execPkdec d s
  | .sgdec d => Sys2Proof.Machine.execSgdec d s
  | .mset a k => Sys2Proof.Machine.execMset a k s
  | .nset a k => Sys2Proof.Machine.execNset a k s
  | .h2p d => Sys2Proof.Machine.execH2p d s
  | .load => Sys2Proof.Machine.execLoad s
  | .store => Sys2Proof.Machine.execStore s
  | .getn => Sys2Proof.Machine.execGetn s
  | .geth d => Sys2Proof.Machine.execGeth d s
  | .gets d => Sys2Proof.Machine.execGets d s
  | .cset a k => Sys2Proof.Machine.execCset a k s
  | .verify d => Sys2Proof.Machine.execVerify d s

end Sys2Proof.Machine
end

