-- ==== Sys2Proof/Machine/Flags.lean ====
section
/-! DEFINITION. The status bits. The engine has no arithmetic flag (rule R54); what it has are the
fields of `STATUS` (rule R47) and `ERR` (rule R48), which the host reads as words, and the tag of a
polynomial register (rule R38). -/

namespace Sys2Proof.Machine

/-- The encoding of a polynomial register's tag (rule R38): `EMPTY` 0, `COEF` 1, `EVAL` 2. -/
def PolyReg.tag : PolyReg → BitVec 2
  | .empty => 0
  | .held .coef _ => 1
  | .held .eval _ => 2

/-- The numbers of rule R260. -/
def FaultCode.number : FaultCode → BitVec 4
  | .illegal => 1
  | .uninit => 2
  | .form => 3
  | .nosig => 4
  | .range => 5

/-- `ERR.EKIND` (rules R48, R265). -/
def DecodeError.kind : DecodeError → BitVec 2
  | .length => 1
  | .pkHeader => 2
  | .pkRange => 2
  | .sigHeader => 3
  | .sigOverrun => 3
  | .sigMaxMag => 3
  | .sigNegZero => 3
  | .sigTrail => 3

/-- `ERR.ESUB` (rules R48, R265). -/
def DecodeError.sub : DecodeError → BitVec 3
  | .length => 0
  | .pkHeader => 1
  | .pkRange => 2
  | .sigHeader => 1
  | .sigOverrun => 2
  | .sigMaxMag => 3
  | .sigNegZero => 4
  | .sigTrail => 5

/-- `STATUS.SIGV` (rule R47). -/
def State.sigv (s : State) : Bool := s.sig.isSome

/-- `STATUS.FCODE`; 0 when `FAULT` is 0 (rule R47). -/
def State.fcode (s : State) : BitVec 4 :=
  match s.fault with
  | some code => code.number
  | none => 0

/-- `STATUS` as the host reads it: FCODE in 7:4, 0 in 3:2, FAULT in 1, SIGV in 0 (rule R47). -/
def State.statusWord (s : State) : BitVec 8 :=
  s.fcode ++ (0 : BitVec 2) ++ BitVec.ofBool s.fault.isSome ++ BitVec.ofBool s.sigv

/-- `ERR` as the host reads it: 0 in 7, ESUB in 6:4, 0 in 3:2, EKIND in 1:0 (rule R48). -/
def State.errWord (s : State) : BitVec 8 :=
  match s.err with
  | some e => (0 : BitVec 1) ++ e.sub ++ (0 : BitVec 2) ++ e.kind
  | none => 0

end Sys2Proof.Machine
end

