-- ==== Sys2Proof/Machine/HostOps.lean ====
section
/-! DEFINITION. What each action of the outside world does: the four host operations of rule R55, the
issue of a command among them (rules R51, R104), and the hard reset (rule R290). -/

namespace Sys2Proof.Machine

/-- Issue a command word (rule R104): ignored while `STATUS.FAULT` is 1 (rule R263), else decoded;
`F_ILLEGAL` if it is no command (rule R108), else executed. -/
def issue (w : Word32) (s : State) : Host.Outcome State Fault Refusal :=
  if s.fault.isSome then .next s
  else
    match decode w with
    | .ok i => exec i s
    | .error _ => .next (takeFault .illegal w s)

/-- The index of the `x` register that control register number `num` reaches: 0x10 + i (rule R46). -/
def xOfCsr (num : Nat) : Option XReg :=
  if h : 0x10 ≤ num ∧ num ≤ 0x1F then some ⟨num - 0x10, by omega⟩ else none

/-- `HostWriteCSR(num, v)` (rule R46): `BLEN` takes v[10:0] (rule R50), `CTRL` bit 0 is the soft reset
(rule R53), `CMD` issues v[31:0] (rule R51), `X`i takes v (rule R52); a write of a read-only or
unlisted register is ignored. -/
def hostWriteCsr (num : Nat) (v : Word64) (s : State) : Host.Outcome State Fault Refusal :=
  if num = 0x03 then .next { s with blen := v.setWidth 11 }
  else if num = 0x04 then .next (if v.getLsbD 0 then s.afterReset else s)
  else if num = 0x05 then issue (v.setWidth 32) s
  else
    match xOfCsr num with
    | some i => .next (s.setX i v)
    | none => .next s

/-- The value of a control register as the host reads it, zero-extended (rule R46): none for a
write-only or unlisted number, and for an `x` register with no value. -/
def csrValue (num : Nat) (s : State) : Option Word64 :=
  if num = 0x00 then some (s.statusWord.setWidth 64)
  else if num = 0x01 then some (s.errWord.setWidth 64)
  else if num = 0x02 then some (s.fcmd.setWidth 64)
  else if num = 0x03 then some (s.blen.setWidth 64)
  else (xOfCsr num).bind fun i => s.x[i]

/-- `HostReadCSR(num)` (rule R46). Where there is no value to return, the read returns a free word
(rule R52, D9, U9) and leaves the register without a value. -/
def hostReadCsr (num : Nat) (s : State) : State :=
  match csrValue num s with
  | some v => s.answer (.word v)
  | none => s.answerFree fun n => .word (Config.freeWord n)

/-- `HostWriteBuf(a, b)`: ignored outside `BUF` (rule R73). -/
def hostWriteBuf (a : Nat) (b : Byte) (s : State) : State :=
  if a < serLen then { s with buf := s.buf.write a b } else s

/-- `HostReadBuf(a)`: a free byte outside `BUF` (rule R73, D8, U9; assumption log 7). -/
def hostReadBuf (a : Nat) (s : State) : State :=
  if a < serLen then s.answer (.byte (s.bufByte a))
  else s.answerFree fun n => .byte (Config.freeByte n)

/-- One action of the outside world. -/
def perform (i : Input) (s : State) : Host.Outcome State Fault Refusal :=
  match i with
  | .writeCsr num v => hostWriteCsr num v s
  | .readCsr num => .next (hostReadCsr num s)
  | .writeBuf a b => .next (hostWriteBuf a b s)
  | .readBuf a => .next (hostReadBuf a s)
  | .hardReset => .next s.afterReset

end Sys2Proof.Machine
end

