-- ==== Sys2Proof/Machine/Step.lean ====
section
/-! DEFINITION. One step of the machine: the next action of the outside world takes effect, as one
atomic step (rules R30, R55, R83). The engine has no program counter and no fetch (rule R36); the
command it runs next is the one the host writes to `CMD` next. -/

namespace Sys2Proof.Machine

/-- One step. With no action pending the engine is idle and keeps all state (rule R279). -/
def step (s : State) : Host.Outcome State Fault Refusal :=
  match s.pending with
  | [] => .next s
  | i :: rest => perform i { s with pending := rest }

/-- `s` with the write of the command word `w` to `CMD` as the host's next action, so that the very
next step runs it (assumption log 5). Every command has 32 bits; bits above `nbits` are 0. -/
def State.withFetchWord (s : State) (nbits w : Nat) : State :=
  { s with pending := .writeCsr 0x05 (BitVec.ofNat 64 (w % 2 ^ nbits)) :: s.pending }

end Sys2Proof.Machine
end

