-- ==== Sys2Proof/Safety.lean ====
section
/-! DEFINITION. The terms claims are stated in: the invariant every step keeps, fault-free states,
sequences of commands, a command's word and the spec's table of words, and the spec's own definitions
of the ring product and of the decoders by bit position, written from the rules and apart from the
functions the machine runs. -/

namespace Sys2Proof.Machine

/-! ### Safe states and runs -/

/-- No fault has been raised since reset (rule R263). -/
abbrev State.faultFree (s : State) : Prop := s.fault = none

/-- The invariant of the engine, at the machine's configuration. That every field and polynomial
entry is below q (rules R33, R37) and that `ERR` and `FCODE` hold only the values of rules R260 and
R265 is already in the types. -/
structure State.Inv (s : State) : Prop where
  /-- `BUF` is in canonical form. -/
  buf : s.buf.wf
  /-- A valid `m[i]` is below `P_WIDE` (rule R39). -/
  message : ∀ (i : Fin 4) (v : Word64), s.m[i] = some v → v.toNat < Config.cfg.pWide
  /-- A valid `n[i]` is below `P_WIDE` (rule R40). -/
  nonce : ∀ (i : Fin 8) (v : Word64), s.n[i] = some v → v.toNat < Config.cfg.pWide
  /-- The decoded polynomials of `SIG` are the decodes of its raw bytes (rule R43). -/
  context : ∀ sg, s.sig = some sg →
    pkDecode sg.pkb.toList = .ok sg.h ∧ sigDecode Config.cfg sg.sgb.toList = .ok sg.s2
  /-- `FCMD` is 0 until a fault is raised (rules R49, R261). -/
  fcmd : s.fault = none → s.fcmd = 0

/-- Execute commands one after the other. -/
def runCommands : List Instr → State → Host.Outcome State Fault Refusal
  | [], s => .next s
  | i :: is, s =>
    match exec i s with
    | .next t => runCommands is t
    | o => o

/-- The host's next action is a reset: the hard reset, or a write of `CTRL` with bit 0 set
(rule R290). -/
abbrev State.resetIsNext (s : State) : Prop :=
  ∃ rest, s.pending = .hardReset :: rest ∨
    ∃ v : Word64, s.pending = .writeCsr 0x04 v :: rest ∧ v.getLsbD 0 = true

/-- The host's read of control register `num`, as its next action, returns `w` and changes nothing
else (rule R46). -/
abbrev hostReads (s : State) (rest : List Input) (num : Nat) (w : Word64) : Prop :=
  step { s with pending := .readCsr num :: rest } =
    .next { s with pending := rest, reply := some (.word w) }

/-! ### Command words -/

/-- The word of rule R101 with `z` = 0. -/
def commandWord (op rd ra rb idx : Nat) : Word32 :=
  BitVec.ofNat 32 (op * 2 ^ 24 + rd * 2 ^ 20 + ra * 2 ^ 16 + rb * 2 ^ 12 + idx)

/-- The `match` and `mask` columns of rule R105, row by row. -/
def opcodeRows : List (Word32 × Word32) :=
  [(0x01000000, 0xFF00FFFF), (0x02000000, 0xFF00FFFF), (0x03000000, 0xFF000FFF),
    (0x04000000, 0xFF000FFF), (0x05000000, 0xFF000FFF), (0x06000000, 0xFF00FFFF),
    (0x10000000, 0xFF8FFFFF), (0x11000000, 0xFF80FE00), (0x12000000, 0xFF08FE00),
    (0x13000000, 0xFF88FFFF), (0x14000000, 0xFF88FFFF), (0x15000000, 0xFF888FFF),
    (0x16000000, 0xFF888FFF), (0x17000000, 0xFF08FFFF), (0x18000000, 0xFF088FFF)] ++
  [(0x20000000, 0xFF8FFFFF), (0x21000000, 0xFF8FFFFF), (0x30000000, 0xFFF0FFFC),
    (0x31000000, 0xFFF0FFF8), (0x32000000, 0xFF8FFFFF), (0x40000000, 0xFFFFFFFF),
    (0x41000000, 0xFFFFFFFF), (0x42000000, 0xFFFFFFFF), (0x43000000, 0xFF8FFFFF),
    (0x44000000, 0xFF8FFFFF), (0x45000000, 0xFFF0FFFC), (0x46000000, 0xFF0FFFFF)]

/-- `w` fits a row of rule R105. -/
abbrev fitsRow (w : Word32) (row : Word32 × Word32) : Prop := w &&& row.2 = row.1

/-! ### The ring -/

/-- Coefficient `k` of the ring product, as an integer before reduction (rule R17). -/
def ringProductCoeff (a b : Poly) (k : Nat) : Int :=
  ∑ i : Fin 512, ∑ j : Fin 512,
    if i.val + j.val = k then (a[i].val * b[j].val : Int)
    else if i.val + j.val = k + 512 then -(a[i].val * b[j].val : Int)
    else 0

/-- The ring product `a * b` (rule R17). -/
def ringProduct (a b : Poly) : Poly :=
  tabulate ringDegree fun k => Fq.ofNat (ringProductCoeff a b k.val % 12289).toNat

/-! ### Decoding by bit position -/

/-- `bit(B, k)` of rule R13. -/
def bitAt (bytes : List Byte) (k : Nat) : Nat := (bytes.getD (k / 8) 0).toNat / 2 ^ (7 - k % 8) % 2

/-- `bitsMSB(B, k, n)` of rule R13. -/
def bitsMSB (bytes : List Byte) (k n : Nat) : Nat :=
  ∑ j ∈ Finset.range n, bitAt bytes (k + j) * 2 ^ (n - 1 - j)

/-- `CONT` as the bit 0 or 1 (rule R9). -/
def contBit (g : Cfg) : Nat := if g.cont then 1 else 0

/-- The inner loop of rule R190, from a position and a magnitude; the fuel is the number of bits it
may still look at. Gives the magnitude and the position after the terminator. -/
def runByPosition (g : Cfg) (stream : List Byte) : Nat → Nat → Nat → Except DecodeError (Nat × Nat)
  | 0, _, _ => .error .sigOverrun
  | fuel + 1, pos, mag =>
    if 5000 ≤ pos then .error .sigOverrun
    else if bitAt stream pos ≠ contBit g then .ok (mag, pos + 1)
    else if g.maxMag < mag + 2 ^ g.lowBits then .error .sigMaxMag
    else runByPosition g stream fuel (pos + 1) (mag + 2 ^ g.lowBits)

/-- The loop over `n` coefficients of rule R190, from a position. Gives the coefficients and the
position after the last code. -/
def codesByPosition (g : Cfg) (stream : List Byte) : Nat → Nat → Except DecodeError (List Fq × Nat)
  | 0, pos => .ok ([], pos)
  | n + 1, pos =>
    if 5000 < pos + 1 + g.lowBits then .error .sigOverrun
    else do
      let run ← runByPosition g stream 5000 (pos + 1 + g.lowBits)
        (bitsMSB stream (pos + 1) g.lowBits)
      if bitAt stream pos = 1 ∧ run.1 = 0 then .error .sigNegZero
      else do
        let codes ← codesByPosition g stream n run.2
        .ok (Fq.ofNat (if bitAt stream pos = 1 then 12289 - run.1 else run.1) :: codes.1, codes.2)

/-- `sig_decode` as rule R190 writes it. -/
def sigDecodeByPosition (g : Cfg) (bytes : List Byte) : Except DecodeError Poly :=
  if bytes.length ≠ 666 then .error .length
  else if bytes.getD 0 0 ≠ 0x39 then .error .sigHeader
  else do
    let codes ← codesByPosition g (bytes.drop 41) 512 0
    if (List.range' codes.2 (5000 - codes.2)).any fun k => bitAt (bytes.drop 41) k != 0 then
      .error .sigTrail
    else .ok (Poly.ofList codes.1)

/-- The coefficient code of a sign and a magnitude: the sign bit, the low bits most significant first,
the run, the terminator (rule R189). -/
def coefficientCode (g : Cfg) (sign : Bool) (mag : Nat) : List Bool :=
  sign :: (List.range g.lowBits).map (fun j => mag.testBit (g.lowBits - 1 - j)) ++
    List.replicate (mag / 2 ^ g.lowBits) g.cont ++ [!g.cont]

end Sys2Proof.Machine
end

