-- ==== Sys2Proof/Certificates/Slice0/Obligations.lean ====
section
/-! DEFINITION. The statements for the provers. Each docstring names the rule of `spec/` it
formalises. A result is stated as the whole next state, so it is the instruction's completion and its
frame at once: what the record update does not name is unchanged. -/

open Sys2Proof Sys2Proof.Machine

/-! ### Reset, the step, the host's actions -/

/-- Rule R60: the table of reset values. Where it leaves `BUF` arbitrary, a byte is the free value of
log 4. -/
def Obligations.ResetLeavesNoValues : Prop :=
  (∀ i : Fin 16, State.reset.x[i] = none) ∧ (∀ i : Fin 16, State.reset.f[i] = none) ∧
  (∀ i : Fin 8, State.reset.p[i] = .empty) ∧
  (∀ i : Fin 4, State.reset.m[i] = none) ∧ (∀ i : Fin 8, State.reset.n[i] = none) ∧
  (∀ i : Fin 4, State.reset.c[i] = none) ∧ State.reset.sig = none ∧
  State.reset.statusWord = 0 ∧ State.reset.errWord = 0 ∧ State.reset.fcmd = 0 ∧
  State.reset.blen = 0 ∧
  ∀ a, State.reset.bufByte a = Config.powerOnByte 0 a

/-- Rules R53, R290: the hard reset and a write of `CTRL` with bit 0 set both give the state of R60;
a write of `CTRL` with bit 0 clear does nothing. The host's later actions, its latest reply and the
counters of the free values are no state of the engine (log 3 to 6). -/
def Obligations.BothResetsGiveTheResetState : Prop :=
  ∀ (s : State) (rest : List Input) (v : Word64),
    (step { s with pending := .hardReset :: rest } =
      .next { State.reset with
        pending := rest, reply := s.reply, draws := s.draws, resets := s.resets + 1 }) ∧
    (v.getLsbD 0 = true → step { s with pending := .writeCsr 0x04 v :: rest } =
      .next { State.reset with
        pending := rest, reply := s.reply, draws := s.draws, resets := s.resets + 1 }) ∧
    (v.getLsbD 0 = false → step { s with pending := .writeCsr 0x04 v :: rest } =
      .next { s with pending := rest })

/-- The reset state meets the invariant. -/
def Obligations.ResetMeetsInvariant : Prop := State.reset.Inv

/-- Every step keeps the invariant: canonical `BUF` (log 4), `m` and `n` below `P_WIDE` (R39, R40),
`SIG.H` and `SIG.S2` the decodes of the raw bytes (R43), `FCMD` 0 before the first fault. -/
def Obligations.StepKeepsInvariant : Prop :=
  ∀ s t : State, s.Inv → step s = .next t → t.Inv

/-- Rule R104: a command word written to `CMD` while `STATUS.FAULT` is 0, which decodes to `i`, is
executed; the step adds nothing but taking the action off the host's list. -/
def Obligations.StepRunsDecodedCommand : Prop :=
  ∀ (s : State) (rest : List Input) (v : Word64) (i : Instr),
    s.faultFree → decode (v.setWidth 32) = .ok i →
    step { s with pending := .writeCsr 0x05 v :: rest } = exec i { s with pending := rest }

/-- Rules R108, R269: a word that fits no row of the table raises `F_ILLEGAL` and changes nothing
else. -/
def Obligations.IllegalWordRaisesIllegal : Prop :=
  ∀ (s : State) (rest : List Input) (v : Word64),
    s.faultFree → (∀ row ∈ opcodeRows, ¬ fitsRow (v.setWidth 32) row) →
    step { s with pending := .writeCsr 0x05 v :: rest } =
      .next { s with pending := rest, fault := some .illegal, fcmd := v.setWidth 32 }

/-- Rule R263: while `STATUS.FAULT` is 1 every issued command is ignored. -/
def Obligations.FaultedEngineIgnoresCommands : Prop :=
  ∀ (s : State) (rest : List Input) (v : Word64) (code : FaultCode),
    s.fault = some code →
    step { s with pending := .writeCsr 0x05 v :: rest } = .next { s with pending := rest }

/-- Rule R292: only a reset (a) clears `STATUS.FAULT` (and `FCODE` and `FCMD` keep the first fault),
(b) clears a valid bit or sets a tag to `EMPTY`, but for a failed LOAD (word 0x40000000), which empties
`SIG`. -/
def Obligations.OnlyResetClearsFaultsAndValues : Prop :=
  ∀ s t : State, step s = .next t → ¬ s.resetIsNext →
    (∀ code, s.fault = some code → t.fault = some code ∧ t.fcmd = s.fcmd) ∧
    (∀ i : Fin 16, s.x[i].isSome → t.x[i].isSome) ∧
    (∀ i : Fin 16, s.f[i].isSome → t.f[i].isSome) ∧
    (∀ i : Fin 8, s.p[i] ≠ .empty → t.p[i] ≠ .empty) ∧
    (∀ i : Fin 4, s.m[i].isSome → t.m[i].isSome) ∧
    (∀ i : Fin 8, s.n[i].isSome → t.n[i].isSome) ∧
    (∀ i : Fin 4, s.c[i].isSome → t.c[i].isSome) ∧
    (s.sig.isSome → t.sig = none → t.err ≠ none ∧
      ∃ v rest, s.pending = .writeCsr 0x05 v :: rest ∧ v.setWidth 32 = (0x40000000 : Word32))

/-- Rules R281, R298: every action on every state, whatever bytes are in `BUF`, ends in a next
state; the machine never stops. -/
def Obligations.EveryStepCompletes : Prop := ∀ s : State, ∃ t, step s = .next t

/-- Rule R279: with nothing to do the engine keeps all state. -/
def Obligations.IdleEngineKeepsAllState : Prop := ∀ s : State, s.pending = [] → step s = .next s

/-- Rule R261: a command that raises a fault changes `STATUS.FAULT`, `STATUS.FCODE` and `FCMD`, which
takes its word, and nothing else. -/
def Obligations.FaultsArePrecise : Prop :=
  ∀ (i : Instr) (s t : State), s.faultFree → exec i s = .next t → ¬ t.faultFree →
    t = { s with fault := t.fault, fcmd := encode i }

/-- Rules R48, R266: only LOAD, PKDEC and SGDEC write `ERR`. -/
def Obligations.OnlyDecodeCommandsWriteErr : Prop :=
  ∀ (i : Instr) (s t : State), exec i s = .next t → t.err ≠ s.err →
    i = .load ∨ (∃ d, i = .pkdec d) ∨ ∃ d, i = .sgdec d

/-- Rule R88: only another LOAD or a reset changes `SIG`. -/
def Obligations.OnlyLoadAndResetChangeSig : Prop :=
  ∀ s t : State, step s = .next t → t.sig ≠ s.sig →
    s.resetIsNext ∨
    ∃ v rest, s.pending = .writeCsr 0x05 v :: rest ∧ v.setWidth 32 = (0x40000000 : Word32)

/-- Rule R72: STORE is the only command that writes `BUF` or `BLEN`. -/
def Obligations.OnlyStoreWritesBuf : Prop :=
  ∀ (i : Instr) (s t : State), exec i s = .next t → i ≠ .store →
    t.blen = s.blen ∧ ∀ a, t.bufByte a = s.bufByte a

/-- Rules R47, R48, R260, R265: `STATUS` and `ERR` as words. -/
def Obligations.StatusAndErrLayout : Prop :=
  (∀ s : State, s.statusWord.toNat =
    (if s.sig = none then 0 else 1) + (if s.fault = none then 0 else 2) +
      16 * (match s.fault with
        | none => 0 | some .illegal => 1 | some .uninit => 2 | some .form => 3
        | some .nosig => 4 | some .range => 5)) ∧
  ∀ s : State, s.errWord =
    (match s.err with
      | none => 0x00 | some .length => 0x01 | some .pkHeader => 0x12 | some .pkRange => 0x22
      | some .sigHeader => 0x13 | some .sigOverrun => 0x23 | some .sigMaxMag => 0x33
      | some .sigNegZero => 0x43 | some .sigTrail => 0x53)

/-- Rule R46: what a host read of each readable control register returns, and that it changes nothing.
Where there is no value to read, see `ReadOfNoValueReturnsSomeWord`. -/
def Obligations.HostReadsControlRegisters : Prop :=
  ∀ (s : State) (rest : List Input),
    hostReads s rest 0x00 (s.statusWord.setWidth 64) ∧
    hostReads s rest 0x01 (s.errWord.setWidth 64) ∧
    hostReads s rest 0x02 (s.fcmd.setWidth 64) ∧
    hostReads s rest 0x03 (s.blen.setWidth 64) ∧
    ∀ (i : Fin 16) (v : Word64), s.x[i] = some v → hostReads s rest (0x10 + i.val) v

/-- Rule R52, decision D9 and U9: a host read of an `x` register with no value, and of a write-only or
unlisted number, returns some 64-bit value, of which nothing is known (log 3, 7), and changes no state
of the engine: the register still has no value. -/
def Obligations.ReadOfNoValueReturnsSomeWord : Prop :=
  ∀ (s : State) (rest : List Input),
    (∀ i : Fin 16, s.x[i] = none →
      ∃ (w : Word64) (drawn : Nat), step { s with pending := .readCsr (0x10 + i.val) :: rest } =
        .next { s with pending := rest, reply := some (.word w), draws := drawn }) ∧
    ∀ num, (0x03 < num ∧ num < 0x10) ∨ 0x1F < num →
      ∃ (w : Word64) (drawn : Nat), step { s with pending := .readCsr num :: rest } =
        .next { s with pending := rest, reply := some (.word w), draws := drawn }

/-- Rules R46, R50, R52: what a host write of each control register number does, `CTRL` and `CMD`
apart; a write of a read-only or unlisted number is ignored. -/
def Obligations.HostWritesControlRegisters : Prop :=
  ∀ (s : State) (rest : List Input) (v : Word64),
    (∃ l : BitVec 11, l.toNat = v.toNat % 2 ^ 11 ∧
      step { s with pending := .writeCsr 0x03 v :: rest } =
        .next { s with pending := rest, blen := l }) ∧
    (∀ i : Fin 16, step { s with pending := .writeCsr (0x10 + i.val) v :: rest } =
      .next { s with pending := rest, x := s.x.set i.val (some v) i.isLt }) ∧
    ∀ num, (num < 0x03 ∨ (0x05 < num ∧ num < 0x10) ∨ 0x1F < num) →
      step { s with pending := .writeCsr num v :: rest } = .next { s with pending := rest }

/-- Rules R55, R73, R81: a host write of a byte is read back at its address and leaves every other
byte; outside `BUF` a write is ignored and a read returns some byte, of which nothing is known
(decision D8 and U9, log 7); a read changes no state of the engine. -/
def Obligations.HostAccessesBufByteByByte : Prop :=
  ∀ (s : State) (rest : List Input) (a : Nat) (b : Byte),
    (a ≤ 1562 → ∃ buf : Memory,
      step { s with pending := .writeBuf a b :: rest } = .next { s with pending := rest, buf := buf } ∧
      ∀ k, ({ s with buf := buf } : State).bufByte k = if k = a then b else s.bufByte k) ∧
    (1562 < a → step { s with pending := .writeBuf a b :: rest } = .next { s with pending := rest }) ∧
    (a ≤ 1562 → step { s with pending := .readBuf a :: rest } =
      .next { s with pending := rest, reply := some (.byte (s.bufByte a)) }) ∧
    (1562 < a → ∃ (w : Byte) (drawn : Nat), step { s with pending := .readBuf a :: rest } =
      .next { s with pending := rest, reply := some (.byte w), draws := drawn })

/-! ### Encoding -/

/-- Rule R105: a word decodes to a command exactly when it fits a row of the table, and the masks make
at most one row fit. -/
def Obligations.DecodeAcceptsExactlyTheTable : Prop :=
  (∀ w : Word32, (∃ i, decode w = .ok i) ↔ ∃ row ∈ opcodeRows, fitsRow w row) ∧
  opcodeRows.Pairwise fun r u => ∀ w : Word32, ¬ (fitsRow w r ∧ fitsRow w u)

/-- Every well-formed command is what its word decodes to, with every operand at every value. -/
def Obligations.DecodeOfEncodeIsTheCommand : Prop :=
  ∀ i : Instr, i.WellFormed → decode (encode i) = .ok i

/-- A word that decodes to a command is that command's word, and the command is well formed: no
other word stands for it (rule R108: there are no ignored bits). -/
def Obligations.EncodeOfDecodeIsTheWord : Prop :=
  ∀ (w : Word32) (i : Instr), decode w = .ok i → encode i = w ∧ i.WellFormed

/-- Rule R110: the examples with their words. -/
def Obligations.ExampleWordsDecode : Prop :=
  decode 0x01120000 = .ok (.fredu 1 2) ∧ decode 0x03312000 = .ok (.fadd 3 1 2) ∧
  decode 0x112501FF = .ok (.pset 2 5 511) ∧ decode 0x12070000 = .ok (.pget 0 7 0) ∧
  decode 0x15312000 = .ok (.hadam 3 1 2) ∧ decode 0x30050002 = .ok (.mset 5 2) ∧
  decode 0x40000000 = .ok .load ∧ decode 0x46F00000 = .ok (.verify 15)

/-! ### Field arithmetic -/

/-- Rules R132, R133: FREDU and FREDS. -/
def Obligations.ConstructAndReduce : Prop :=
  ∀ (d : FReg) (a : XReg) (s : State),
    decode (commandWord 0x01 d a 0 0) = .ok (.fredu d a) ∧
    decode (commandWord 0x02 d a 0 0) = .ok (.freds d a) ∧
    (∀ v, s.x[a] = some v →
      (∃ r : Fq, r.val = v.toNat % 12289 ∧
        exec (.fredu d a) s = .next { s with f := s.f.set d.val (some r) d.isLt }) ∧
      ∃ r : Fq, (r.val : Int) = v.toInt % 12289 ∧
        exec (.freds d a) s = .next { s with f := s.f.set d.val (some r) d.isLt }) ∧
    (s.x[a] = none →
      exec (.fredu d a) s =
        .next { s with fault := some .uninit, fcmd := commandWord 0x01 d a 0 0 } ∧
      exec (.freds d a) s =
        .next { s with fault := some .uninit, fcmd := commandWord 0x02 d a 0 0 })

/-- Rules R134, R135, R136: FADD, FSUB and FMUL. -/
def Obligations.FieldAddSubMul : Prop :=
  ∀ (d a b : FReg) (s : State),
    decode (commandWord 0x03 d a b 0) = .ok (.fadd d a b) ∧
    decode (commandWord 0x04 d a b 0) = .ok (.fsub d a b) ∧
    decode (commandWord 0x05 d a b 0) = .ok (.fmul d a b) ∧
    (∀ u v, s.f[a] = some u → s.f[b] = some v →
      (∃ r : Fq, r.val = (u.val + v.val) % 12289 ∧
        exec (.fadd d a b) s = .next { s with f := s.f.set d.val (some r) d.isLt }) ∧
      (∃ r : Fq, (r.val : Int) = ((u.val : Int) - (v.val : Int)) % 12289 ∧
        exec (.fsub d a b) s = .next { s with f := s.f.set d.val (some r) d.isLt }) ∧
      ∃ r : Fq, r.val = (u.val * v.val) % 12289 ∧
        exec (.fmul d a b) s = .next { s with f := s.f.set d.val (some r) d.isLt }) ∧
    ((s.f[a] = none ∨ s.f[b] = none) →
      exec (.fadd d a b) s =
        .next { s with fault := some .uninit, fcmd := commandWord 0x03 d a b 0 } ∧
      exec (.fsub d a b) s =
        .next { s with fault := some .uninit, fcmd := commandWord 0x04 d a b 0 } ∧
      exec (.fmul d a b) s =
        .next { s with fault := some .uninit, fcmd := commandWord 0x05 d a b 0 })

/-- Rule R137: FINT. -/
def Obligations.FieldToInteger : Prop :=
  ∀ (d : XReg) (a : FReg) (s : State),
    decode (commandWord 0x06 d a 0 0) = .ok (.fint d a) ∧
    (∀ u, s.f[a] = some u → ∃ v : Word64, v.toNat = u.val ∧
      exec (.fint d a) s = .next { s with x := s.x.set d.val (some v) d.isLt }) ∧
    (s.f[a] = none → exec (.fint d a) s =
      .next { s with fault := some .uninit, fcmd := commandWord 0x06 d a 0 0 })

/-! ### The ring -/

/-- Rule R156: PZERO. -/
def Obligations.ZeroPolynomial : Prop :=
  ∀ (d : PReg) (s : State),
    decode (commandWord 0x10 d 0 0 0) = .ok (.pzero d) ∧
    ∃ r : Poly, (∀ k : Fin 512, r[k] = 0) ∧
      exec (.pzero d) s = .next { s with p := s.p.set d.val (.held .coef r) d.isLt }

/-- Rule R157: PSET. -/
def Obligations.SetOneCoefficient : Prop :=
  ∀ (d : PReg) (a : FReg) (k : Idx) (s : State),
    decode (commandWord 0x11 d a 0 k) = .ok (.pset d a k) ∧
    (∀ poly u, s.p[d] = .held .coef poly → s.f[a] = some u →
      ∃ r : Poly, r[k] = u ∧ (∀ j : Fin 512, j ≠ k → r[j] = poly[j]) ∧
        exec (.pset d a k) s = .next { s with p := s.p.set d.val (.held .coef r) d.isLt }) ∧
    (s.p[d] = .empty → exec (.pset d a k) s =
      .next { s with fault := some .uninit, fcmd := commandWord 0x11 d a 0 k }) ∧
    (∀ poly, s.p[d] = .held .eval poly → exec (.pset d a k) s =
      .next { s with fault := some .form, fcmd := commandWord 0x11 d a 0 k }) ∧
    (∀ poly, s.p[d] = .held .coef poly → s.f[a] = none → exec (.pset d a k) s =
      .next { s with fault := some .uninit, fcmd := commandWord 0x11 d a 0 k })

/-- Rule R158: PGET. -/
def Obligations.GetOneEntry : Prop :=
  ∀ (d : FReg) (a : PReg) (k : Idx) (s : State),
    decode (commandWord 0x12 d a 0 k) = .ok (.pget d a k) ∧
    (∀ form poly, s.p[a] = .held form poly →
      exec (.pget d a k) s = .next { s with f := s.f.set d.val (some (poly[k])) d.isLt }) ∧
    (s.p[a] = .empty → exec (.pget d a k) s =
      .next { s with fault := some .uninit, fcmd := commandWord 0x12 d a 0 k })

/-- Rules R154, R159: NTT, with entry `k` the sum of rule R154. -/
def Obligations.ForwardTransform : Prop :=
  ∀ (d a : PReg) (s : State),
    decode (commandWord 0x13 d a 0 0) = .ok (.ntt d a) ∧
    (∀ poly, s.p[a] = .held .coef poly →
      ∃ e : Poly,
        (∀ k : Fin 512, e[k].val =
          (∑ i : Fin 512, poly[i].val * Config.cfg.psi.val ^ ((2 * k.val + 1) * i.val)) % 12289) ∧
        exec (.ntt d a) s = .next { s with p := s.p.set d.val (.held .eval e) d.isLt }) ∧
    (s.p[a] = .empty → exec (.ntt d a) s =
      .next { s with fault := some .uninit, fcmd := commandWord 0x13 d a 0 0 }) ∧
    (∀ poly, s.p[a] = .held .eval poly → exec (.ntt d a) s =
      .next { s with fault := some .form, fcmd := commandWord 0x13 d a 0 0 })

/-- Rules R155, R160: INTT, with entry `i` the sum of rule R155, for the inverse `pinv` of `PSI`. -/
def Obligations.InverseTransform : Prop :=
  ∀ (d a : PReg) (s : State) (pinv : Nat), Config.cfg.psi.val * pinv % 12289 = 1 →
    decode (commandWord 0x14 d a 0 0) = .ok (.intt d a) ∧
    (∀ e, s.p[a] = .held .eval e →
      ∃ poly : Poly,
        (∀ i : Fin 512, poly[i].val =
          (12265 * ∑ k : Fin 512, e[k].val * pinv ^ ((2 * k.val + 1) * i.val)) % 12289) ∧
        exec (.intt d a) s = .next { s with p := s.p.set d.val (.held .coef poly) d.isLt }) ∧
    (s.p[a] = .empty → exec (.intt d a) s =
      .next { s with fault := some .uninit, fcmd := commandWord 0x14 d a 0 0 }) ∧
    (∀ e, s.p[a] = .held .coef e → exec (.intt d a) s =
      .next { s with fault := some .form, fcmd := commandWord 0x14 d a 0 0 })

/-- Rule R161: HADAM. -/
def Obligations.PointwiseProduct : Prop :=
  ∀ (d a b : PReg) (s : State),
    decode (commandWord 0x15 d a b 0) = .ok (.hadam d a b) ∧
    (∀ u v, s.p[a] = .held .eval u → s.p[b] = .held .eval v →
      ∃ r : Poly, (∀ k : Fin 512, r[k].val = (u[k].val * v[k].val) % 12289) ∧
        exec (.hadam d a b) s = .next { s with p := s.p.set d.val (.held .eval r) d.isLt }) ∧
    (s.p[a] = .empty → exec (.hadam d a b) s =
      .next { s with fault := some .uninit, fcmd := commandWord 0x15 d a b 0 }) ∧
    (∀ u, s.p[a] = .held .coef u → exec (.hadam d a b) s =
      .next { s with fault := some .form, fcmd := commandWord 0x15 d a b 0 }) ∧
    (∀ u, s.p[a] = .held .eval u → s.p[b] = .empty → exec (.hadam d a b) s =
      .next { s with fault := some .uninit, fcmd := commandWord 0x15 d a b 0 }) ∧
    (∀ u v, s.p[a] = .held .eval u → s.p[b] = .held .coef v → exec (.hadam d a b) s =
      .next { s with fault := some .form, fcmd := commandWord 0x15 d a b 0 })

/-- Rule R162: PSUB, on two operands of one form. -/
def Obligations.PointwiseDifference : Prop :=
  ∀ (d a b : PReg) (s : State),
    decode (commandWord 0x16 d a b 0) = .ok (.psub d a b) ∧
    (∀ form u v, s.p[a] = .held form u → s.p[b] = .held form v →
      ∃ r : Poly, (∀ k : Fin 512, (r[k].val : Int) = ((u[k].val : Int) - (v[k].val : Int)) % 12289) ∧
        exec (.psub d a b) s = .next { s with p := s.p.set d.val (.held form r) d.isLt }) ∧
    ((s.p[a] = .empty ∨ s.p[b] = .empty) → exec (.psub d a b) s =
      .next { s with fault := some .uninit, fcmd := commandWord 0x16 d a b 0 }) ∧
    (∀ f1 f2 u v, f1 ≠ f2 → s.p[a] = .held f1 u → s.p[b] = .held f2 v → exec (.psub d a b) s =
      .next { s with fault := some .form, fcmd := commandWord 0x16 d a b 0 })

/-- Rules R151, R152, R163: NORMSQ gives the exact sum of the squared centered coefficients. -/
def Obligations.SquaredCenteredNorm : Prop :=
  ∀ (d : XReg) (a : PReg) (s : State),
    decode (commandWord 0x17 d a 0 0) = .ok (.normsq d a) ∧
    (∀ poly, s.p[a] = .held .coef poly →
      ∃ v : Word64,
        (v.toNat : Int) = (∑ i : Fin 512,
          (if poly[i].val ≤ 6144 then (poly[i].val : Int) else (poly[i].val : Int) - 12289) ^ 2) ∧
        v.toNat ≤ 19327352832 ∧
        exec (.normsq d a) s = .next { s with x := s.x.set d.val (some v) d.isLt }) ∧
    (s.p[a] = .empty → exec (.normsq d a) s =
      .next { s with fault := some .uninit, fcmd := commandWord 0x17 d a 0 0 }) ∧
    (∀ poly, s.p[a] = .held .eval poly → exec (.normsq d a) s =
      .next { s with fault := some .form, fcmd := commandWord 0x17 d a 0 0 })

/-- Rule R164: PEQ. -/
def Obligations.PolynomialEquality : Prop :=
  ∀ (d : XReg) (a b : PReg) (s : State),
    decode (commandWord 0x18 d a b 0) = .ok (.peq d a b) ∧
    (∀ form u v, s.p[a] = .held form u → s.p[b] = .held form v →
      ((∀ k : Fin 512, u[k] = v[k]) → exec (.peq d a b) s =
        .next { s with x := s.x.set d.val (some 1) d.isLt }) ∧
      ((∃ k : Fin 512, u[k] ≠ v[k]) → exec (.peq d a b) s =
        .next { s with x := s.x.set d.val (some 0) d.isLt })) ∧
    ((s.p[a] = .empty ∨ s.p[b] = .empty) → exec (.peq d a b) s =
      .next { s with fault := some .uninit, fcmd := commandWord 0x18 d a b 0 }) ∧
    (∀ f1 f2 u v, f1 ≠ f2 → s.p[a] = .held f1 u → s.p[b] = .held f2 v → exec (.peq d a b) s =
      .next { s with fault := some .form, fcmd := commandWord 0x18 d a b 0 })

/-- Rule R165, item 1, and rule R155: the transforms are inverse to each other, for every legal
configuration. -/
def Obligations.TransformsAreInverse : Prop :=
  ∀ (g : Cfg) (poly : Poly), inttOf g (nttOf g poly) = poly ∧ nttOf g (inttOf g poly) = poly

/-- Rule R165, item 2: the transform of a ring product is the pointwise product of the transforms,
for every legal configuration. -/
def Obligations.TransformIsMultiplicative : Prop :=
  ∀ (g : Cfg) (a b : Poly), nttOf g (ringProduct a b) = hadamardOf (nttOf g a) (nttOf g b)

/-- Rule R243, by rule R165, item 4: the polynomial recovered is cp − s2·h in the ring, whatever
`PSI` is. -/
def Obligations.RecoveredPolynomialIsTheRingDifference : Prop :=
  ∀ (g : Cfg) (cp s2 h : Poly),
    recoverS1 g cp s2 h =
      inttOf g (pointwiseSub (nttOf g cp) (hadamardOf (nttOf g s2) (nttOf g h))) ∧
    recoverS1 g cp s2 h = pointwiseSub cp (ringProduct s2 h)

/-! ### The codec -/

/-- Rule R184: `pk_decode`, with the coefficients at the bit positions of rule R183. -/
def Obligations.PublicKeyDecoder : Prop :=
  ∀ bytes : List Byte,
    (bytes.length ≠ 897 → pkDecode bytes = .error .length) ∧
    (bytes.length = 897 → bytes.getD 0 0 ≠ 0x09 → pkDecode bytes = .error .pkHeader) ∧
    (bytes.length = 897 → bytes.getD 0 0 = 0x09 →
      (∃ i, i < 512 ∧ 12289 ≤ bitsMSB (bytes.drop 1) (14 * i) 14) →
      pkDecode bytes = .error .pkRange) ∧
    (bytes.length = 897 → bytes.getD 0 0 = 0x09 →
      (∀ i, i < 512 → bitsMSB (bytes.drop 1) (14 * i) 14 < 12289) →
      ∃ h : Poly, pkDecode bytes = .ok h ∧
        ∀ i : Fin 512, h[i].val = bitsMSB (bytes.drop 1) (14 * i.val) 14)

/-- Rule R185 (c): each polynomial has exactly one accepted public-key blob. -/
def Obligations.EachPublicKeyHasOneBlob : Prop :=
  ∀ h : Poly, ∃ bytes : List Byte, pkDecode bytes = .ok h ∧
    ∀ other, pkDecode other = .ok h → other = bytes

/-- Rule R189: a coefficient code is read back as its value, at every sign and magnitude that are
valid, whatever bits follow it. -/
def Obligations.CoefficientCodeIsReadBack : Prop :=
  ∀ (g : Cfg) (sign : Bool) (mag : Nat) (rest : List Bool),
    mag ≤ g.maxMag → ¬ (sign = true ∧ mag = 0) →
    ∃ r : Fq, r.val = (if sign then 12289 - mag else mag) ∧
      readCode g (coefficientCode g sign mag ++ rest) = .ok (r, rest)

/-- Rule R190: the decoder that consumes the bit string is the rule's decoder by bit position. -/
def Obligations.SignatureDecoderFollowsTheRule : Prop :=
  ∀ (g : Cfg) (bytes : List Byte), sigDecode g bytes = sigDecodeByPosition g bytes

/-- Rule R193 (c): of two accepted signature blobs with one nonce and one polynomial there is only
one. -/
def Obligations.SignatureDecodeIsUnique : Prop :=
  ∀ (g : Cfg) (b1 b2 : List Byte) (s2 : Poly),
    sigDecode g b1 = .ok s2 → sigDecode g b2 = .ok s2 → (b1.drop 1).take 40 = (b2.drop 1).take 40 →
    b1 = b2

/-- Rule R193 (b), (e): every decoded coefficient is within `MAXMAG` of zero, so the norm is bounded,
and the nonce bytes do not matter. -/
def Obligations.SignatureDecodeIsBoundedAndIgnoresNonce : Prop :=
  (∀ (g : Cfg) (bytes : List Byte) (s2 : Poly), sigDecode g bytes = .ok s2 →
    (∀ i : Fin 512, -(g.maxMag : Int) ≤ center s2[i] ∧ center s2[i] ≤ (g.maxMag : Int)) ∧
    normSquared s2 ≤ 512 * g.maxMag ^ 2) ∧
  ∀ (g : Cfg) (n1 n2 stream : List Byte) (hdr : Byte), n1.length = 40 → n2.length = 40 →
    sigDecode g (hdr :: (n1 ++ stream)) = sigDecode g (hdr :: (n2 ++ stream))

/-- Rule R186: PKDEC. -/
def Obligations.DecodePublicKeyIntoRegister : Prop :=
  ∀ (d : PReg) (s : State),
    decode (commandWord 0x20 d 0 0 0) = .ok (.pkdec d) ∧
    (s.blen.toNat ≠ 897 → exec (.pkdec d) s = .next { s with err := some .length }) ∧
    (s.blen.toNat = 897 → ∀ e, pkDecode ((List.range 897).map s.bufByte) = .error e →
      exec (.pkdec d) s = .next { s with err := some e }) ∧
    (s.blen.toNat = 897 → ∀ h, pkDecode ((List.range 897).map s.bufByte) = .ok h →
      exec (.pkdec d) s =
        .next { s with p := s.p.set d.val (.held .coef h) d.isLt, err := none })

/-- Rule R192: SGDEC. -/
def Obligations.DecodeSignatureIntoRegister : Prop :=
  ∀ (d : PReg) (s : State),
    decode (commandWord 0x21 d 0 0 0) = .ok (.sgdec d) ∧
    (s.blen.toNat ≠ 666 → exec (.sgdec d) s = .next { s with err := some .length }) ∧
    (s.blen.toNat = 666 → ∀ e, sigDecode Config.cfg ((List.range 666).map s.bufByte) = .error e →
      exec (.sgdec d) s = .next { s with err := some e }) ∧
    (s.blen.toNat = 666 → ∀ s2, sigDecode Config.cfg ((List.range 666).map s.bufByte) = .ok s2 →
      exec (.sgdec d) s =
        .next { s with p := s.p.set d.val (.held .coef s2) d.isLt, err := none })

/-! ### Hash-to-point -/

/-- Rules R216, R217: MSET and NSET. -/
def Obligations.SetMessageAndNonceElements : Prop :=
  ∀ (a : XReg) (k : Idx) (s : State),
    (∀ hk : k.val < 4, decode (commandWord 0x30 0 a 0 k) = .ok (.mset a k) ∧
      (s.x[a] = none → exec (.mset a k) s =
        .next { s with fault := some .uninit, fcmd := commandWord 0x30 0 a 0 k }) ∧
      ∀ v, s.x[a] = some v →
        (Config.cfg.pWide ≤ v.toNat → exec (.mset a k) s =
          .next { s with fault := some .range, fcmd := commandWord 0x30 0 a 0 k }) ∧
        (v.toNat < Config.cfg.pWide → exec (.mset a k) s =
          .next { s with m := s.m.set k.val (some v) hk })) ∧
    (∀ hk : k.val < 8, decode (commandWord 0x31 0 a 0 k) = .ok (.nset a k) ∧
      (s.x[a] = none → exec (.nset a k) s =
        .next { s with fault := some .uninit, fcmd := commandWord 0x31 0 a 0 k }) ∧
      ∀ v, s.x[a] = some v →
        (Config.cfg.pWide ≤ v.toNat → exec (.nset a k) s =
          .next { s with fault := some .range, fcmd := commandWord 0x31 0 a 0 k }) ∧
        (v.toNat < Config.cfg.pWide → exec (.nset a k) s =
          .next { s with n := s.n.set k.val (some v) hk }))

/-- Rule R214: coefficient 8r + j of hash-to-point is rate position j after r + 1 permutations of the
absorbed state, reduced mod q, for every legal configuration; the nonce is absorbed into zeros, where
both modes of rule R212 store it as it is. -/
def Obligations.HashToPointFollowsTheRule : Prop :=
  ∀ (g : Cfg) (message : Vector Word64 4) (nonce : Vector Word64 8),
    (∀ j : Fin 4, message[j].toNat < g.pWide) → (∀ j : Fin 8, nonce[j].toNat < g.pWide) →
    ∃ st0 st1 : g.Sponge,
      (∀ i : Fin g.w, st0[i].val =
        if h : g.rate0 ≤ i.val ∧ i.val < g.rate0 + 8 then
          (nonce[i.val - g.rate0]'(by omega)).toNat else 0) ∧
      (∀ i : Fin g.w, st1[i].val =
        if h : g.rate0 ≤ i.val ∧ i.val < g.rate0 + 4 then
          match g.absorb with
          | .overwrite => (message[i.val - g.rate0]'(by omega)).toNat
          | .add => ((g.permute st0)[i].val + (message[i.val - g.rate0]'(by omega)).toNat) % g.pWide
        else (g.permute st0)[i].val) ∧
      ∀ (r : Fin 64) (j : Fin 8) (hi : g.rate0 + j.val < g.w),
        ((hashToPoint g message nonce)[8 * r.val + j.val]'(by unfold ringDegree; omega)).val =
          (g.permute^[r.val + 1] st1)[g.rate0 + j.val].val % 12289

/-- Rule R218: H2P. -/
def Obligations.HashToPointIntoRegister : Prop :=
  ∀ (d : PReg) (s : State),
    decode (commandWord 0x32 d 0 0 0) = .ok (.h2p d) ∧
    (∀ (message : Vector Word64 4) (nonce : Vector Word64 8),
      (∀ j : Fin 4, s.m[j] = some message[j]) → (∀ j : Fin 8, s.n[j] = some nonce[j]) →
      exec (.h2p d) s = .next { s with
        p := s.p.set d.val (.held .coef (hashToPoint Config.cfg message nonce)) d.isLt }) ∧
    (((∃ j : Fin 4, s.m[j] = none) ∨ ∃ j : Fin 8, s.n[j] = none) → exec (.h2p d) s =
      .next { s with fault := some .uninit, fcmd := commandWord 0x32 d 0 0 0 })

/-! ### The signature context and the verifier -/

/-- Rules R231, R232: LOAD takes all four parts, or empties the context and reports the first error,
the public key's before the signature's. -/
def Obligations.LoadTakesAllOrNothing : Prop :=
  decode 0x40000000 = .ok .load ∧
  ∀ s : State,
    (s.blen.toNat ≠ 1563 → exec .load s = .next { s with sig := none, err := some .length }) ∧
    (s.blen.toNat = 1563 → ∀ e, pkDecode ((List.range 897).map s.bufByte) = .error e →
      exec .load s = .next { s with sig := none, err := some e }) ∧
    (s.blen.toNat = 1563 → ∀ h e, pkDecode ((List.range 897).map s.bufByte) = .ok h →
      sigDecode Config.cfg ((List.range 666).map fun k => s.bufByte (897 + k)) = .error e →
      exec .load s = .next { s with sig := none, err := some e }) ∧
    (s.blen.toNat = 1563 → ∀ h s2, pkDecode ((List.range 897).map s.bufByte) = .ok h →
      sigDecode Config.cfg ((List.range 666).map fun k => s.bufByte (897 + k)) = .ok s2 →
      ∃ sg : Signature,
        (∀ k : Fin 897, sg.pkb[k] = s.bufByte k.val) ∧
        (∀ k : Fin 666, sg.sgb[k] = s.bufByte (897 + k.val)) ∧ sg.h = h ∧ sg.s2 = s2 ∧
        exec .load s = .next { s with sig := some sg, err := none })

/-- Rule R233: STORE writes the raw bytes of the context and 1563 to `BLEN`, and no byte outside
`BUF`. -/
def Obligations.StoreWritesTheRawBytes : Prop :=
  decode 0x41000000 = .ok .store ∧
  ∀ s : State,
    (s.sig = none → exec .store s =
      .next { s with fault := some .nosig, fcmd := 0x41000000 }) ∧
    ∀ sg, s.sig = some sg →
      ∃ buf : Memory, exec .store s = .next { s with buf := buf, blen := 1563 } ∧
        (∀ k : Fin 897, ({ s with buf := buf } : State).bufByte k.val = sg.pkb[k]) ∧
        (∀ k : Fin 666, ({ s with buf := buf } : State).bufByte (897 + k.val) = sg.sgb[k]) ∧
        ∀ a, 1563 ≤ a → ({ s with buf := buf } : State).bufByte a = s.bufByte a

/-- Rule R234: from a state that meets the invariant and holds a signature, STORE then LOAD leaves
the context as it was and `ERR` at (OK, 0). -/
def Obligations.StoreThenLoadIsTheSameContext : Prop :=
  ∀ (s : State) (sg : Signature), s.Inv → s.sig = some sg →
    ∃ t, runCommands [.store, .load] s = .next t ∧ t.sig = some sg ∧ t.err = none

/-- Rules R235, R236: GETN writes all eight nonce elements. -/
def Obligations.ExtractNonce : Prop :=
  decode 0x42000000 = .ok .getn ∧
  ∀ s : State,
    (s.sig = none → exec .getn s =
      .next { s with fault := some .nosig, fcmd := 0x42000000 }) ∧
    ∀ sg, s.sig = some sg →
      ∃ e : Vector Word64 8,
        (∀ j : Fin 8, e[j].toNat =
          ∑ k : Fin 5, (sg.sgb[1 + 5 * j.val + k.val]'(by unfold sigLen; omega)).toNat * 256 ^ k.val) ∧
        exec .getn s = .next { s with n := tabulate 8 fun j => some e[j] }

/-- Rules R237, R238: GETH and GETS. -/
def Obligations.CopyDecodedPolynomials : Prop :=
  ∀ (d : PReg) (s : State),
    decode (commandWord 0x43 d 0 0 0) = .ok (.geth d) ∧
    decode (commandWord 0x44 d 0 0 0) = .ok (.gets d) ∧
    (s.sig = none →
      exec (.geth d) s =
        .next { s with fault := some .nosig, fcmd := commandWord 0x43 d 0 0 0 } ∧
      exec (.gets d) s =
        .next { s with fault := some .nosig, fcmd := commandWord 0x44 d 0 0 0 }) ∧
    ∀ sg, s.sig = some sg →
      exec (.geth d) s = .next { s with p := s.p.set d.val (.held .coef sg.h) d.isLt } ∧
      exec (.gets d) s = .next { s with p := s.p.set d.val (.held .coef sg.s2) d.isLt }

/-- Rule R239: CSET. -/
def Obligations.SetCommitmentLimb : Prop :=
  ∀ (a : XReg) (k : Idx) (s : State) (hk : k.val < 4),
    decode (commandWord 0x45 0 a 0 k) = .ok (.cset a k) ∧
    (∀ v, s.x[a] = some v → exec (.cset a k) s =
      .next { s with c := s.c.set k.val (some v) hk }) ∧
    (s.x[a] = none → exec (.cset a k) s =
      .next { s with fault := some .uninit, fcmd := commandWord 0x45 0 a 0 k })

/-- Rules R245, R246: VERIFY writes 1 exactly when a signature is loaded, the commitment matches and
the sum of the norms is strictly below the bound, else 0, and changes nothing else. -/
def Obligations.VerifyWritesTheVerdict : Prop :=
  ∀ (d : XReg) (s : State),
    decode (commandWord 0x46 d 0 0 0) = .ok (.verify d) ∧
    (((∃ j : Fin 4, s.m[j] = none) ∨ ∃ j : Fin 4, s.c[j] = none) → exec (.verify d) s =
      .next { s with fault := some .uninit, fcmd := commandWord 0x46 d 0 0 0 }) ∧
    ∀ (message commitment : Vector Word64 4),
      (∀ j : Fin 4, s.m[j] = some message[j]) → (∀ j : Fin 4, s.c[j] = some commitment[j]) →
      (s.sig = none → exec (.verify d) s =
        .next { s with x := s.x.set d.val (some 0) d.isLt }) ∧
      ∀ (sg : Signature) (cp s1 : Poly), s.sig = some sg →
        cp = hashToPoint Config.cfg message (nonceElements sg.sgb) →
        s1 = inttOf Config.cfg (pointwiseSub (nttOf Config.cfg cp)
          (hadamardOf (nttOf Config.cfg sg.s2) (nttOf Config.cfg sg.h))) →
        (((∀ j : Fin 4, (Config.cfg.commitHash sg.h)[j] = commitment[j]) ∧
            normSquared s1 + normSquared sg.s2 < Config.cfg.l2Bound) →
          exec (.verify d) s = .next { s with x := s.x.set d.val (some 1) d.isLt }) ∧
        (((∃ j : Fin 4, (Config.cfg.commitHash sg.h)[j] ≠ commitment[j]) ∨
            Config.cfg.l2Bound ≤ normSquared s1 + normSquared sg.s2) →
          exec (.verify d) s = .next { s with x := s.x.set d.val (some 0) d.isLt })

/-- Rule R165: the verdict does not depend on `PSI`, for every legal configuration. -/
def Obligations.VerdictDoesNotDependOnPsi : Prop :=
  ∀ (g : Cfg) (psi : Fq) (h1 : psi.val ^ 1024 % q = 1) (h2 : psi.val ^ 512 % q ≠ 1)
    (h s2 : Poly) (sgb : Vector Byte sigLen) (message commitment : Vector Word64 4),
    verifyFn { g with psi := psi, psi_pow_1024 := h1, psi_pow_512 := h2 }
      h s2 sgb message commitment = verifyFn g h s2 sgb message commitment

/-- Rule R247: the sequence of primitive commands raises no fault and leaves the norms of the two
polynomials that VERIFY uses; the verdict is 1 exactly when the commitment matches and their sum is
below the bound. -/
def Obligations.PrimitiveCommandsReplayVerify : Prop :=
  ∀ (s : State) (sg : Signature) (message : Vector Word64 4),
    s.faultFree → s.sig = some sg → (∀ j : Fin 4, s.m[j] = some message[j]) →
    ∃ (t : State) (n1 n2 : Word64),
      runCommands [.getn, .h2p 0, .gets 1, .geth 2, .ntt 3 0, .ntt 4 1, .ntt 5 2, .hadam 6 4 5,
        .psub 6 3 6, .intt 7 6, .normsq 0 7, .normsq 1 1] s = .next t ∧
      t.faultFree ∧ t.x[0] = some n1 ∧ t.x[1] = some n2 ∧
      n1.toNat = normSquared (recoverS1 Config.cfg
        (hashToPoint Config.cfg message (nonceElements sg.sgb)) sg.s2 sg.h) ∧
      n2.toNat = normSquared sg.s2 ∧
      ∀ (commitment : Vector Word64 4) (d : XReg), (∀ j : Fin 4, s.c[j] = some commitment[j]) →
        (((∀ j : Fin 4, (Config.cfg.commitHash sg.h)[j] = commitment[j]) ∧
            n1.toNat + n2.toNat < Config.cfg.l2Bound) →
          exec (.verify d) s = .next { s with x := s.x.set d.val (some 1) d.isLt }) ∧
        (((∃ j : Fin 4, (Config.cfg.commitHash sg.h)[j] ≠ commitment[j]) ∨
            Config.cfg.l2Bound ≤ n1.toNat + n2.toNat) →
          exec (.verify d) s = .next { s with x := s.x.set d.val (some 0) d.isLt })
end

