-- ==== Sys2Proof/Laws/Basic.lean ====
section
/-! SUPPORT. The small lemmas of `Word.lean` and `Config.lean`: vectors made entry by entry,
polynomials made from lists, reduction mod q, wide-field elements. -/

namespace Sys2Proof

@[simp] theorem tabulate_getElem {α : Type} (n : Nat) (f : Fin n → α) (i : Nat) (h : i < n) :
    (tabulate n f)[i] = f ⟨i, h⟩ := by simp [tabulate]

@[simp] theorem tabulate_getElem_fin {α : Type} (n : Nat) (f : Fin n → α) (i : Fin n) :
    (tabulate n f)[i] = f i := by simp [Fin.getElem_fin]

@[simp] theorem tabulate_toList {α : Type} (n : Nat) (f : Fin n → α) :
    (tabulate n f).toList = List.ofFn f := rfl

@[simp] theorem Fq.ofNat_val (v : Nat) : (Fq.ofNat v).val = v % q := rfl

@[simp] theorem Fq.ofNat_val_self (v : Fq) : Fq.ofNat v.val = v :=
  Fin.ext (Nat.mod_eq_of_lt v.isLt)

/-- A list of exactly 512 elements is the list of the polynomial made from it. -/
theorem Poly.ofList_toList {l : List Fq} (h : l.length = ringDegree) :
    (Poly.ofList l).toList = l := by
  show (l ++ List.replicate ringDegree 0).take ringDegree = l
  rw [← h]; simp

/-- Entry `i` of the polynomial made from a list of exactly 512 elements. -/
theorem Poly.ofList_getElem {l : List Fq} (h : l.length = ringDegree) (i : Nat)
    (hi : i < ringDegree) : (Poly.ofList l)[i] = l[i]'(h ▸ hi) := by
  have := congrArg (fun k => k[i]?) (Poly.ofList_toList h)
  simpa [hi, h] using this

@[simp] theorem Poly.zero_getElem (i : Nat) (hi : i < ringDegree) : Poly.zero[i] = 0 := by
  simp [Poly.zero]

/-- A register value below `P_WIDE` is the wide-field element it stands for. -/
theorem Cfg.toFw_val {g : Cfg} {v : Word64} (h : v.toNat < g.pWide) : (g.toFw v).val = v.toNat :=
  Nat.mod_eq_of_lt h

end Sys2Proof
end

