-- ==== Sys2Proof/Laws/Operands.lean ====
section
/-! SUPPORT. What each checked read answers: the value when its checks pass, the fault of the first
check that fails. A meaning is evaluated by rewriting with these. -/

namespace Sys2Proof.Machine

@[simp] theorem finish_ok (w : Word32) (s t : State) : finish w s (.ok t) = .next t := rfl

@[simp] theorem finish_error (w : Word32) (s : State) (code : FaultCode) :
    finish w s (.error code) = .next (takeFault code w s) := rfl

/-- A command ends in its effect or in a fault, and in nothing else. -/
theorem finish_eq_next {w : Word32} {s t : State} {r : Except FaultCode State} :
    finish w s r = .next t ↔ r = .ok t ∨ ∃ code, r = .error code ∧ takeFault code w s = t := by
  cases r <;> simp [finish]

@[simp] theorem except_ok_bind {ε α β : Type} (a : α) (f : α → Except ε β) :
    (Except.ok a >>= f) = f a := rfl

@[simp] theorem except_error_bind {ε α β : Type} (e : ε) (f : α → Except ε β) :
    (Except.error e >>= f) = .error e := rfl

theorem except_bind_eq_ok {ε α β : Type} {r : Except ε α} {f : α → Except ε β} {b : β} :
    (r >>= f) = .ok b ↔ ∃ a, r = .ok a ∧ f a = .ok b := by
  cases r <;> simp

theorem except_bind_eq_error {ε α β : Type} {r : Except ε α} {f : α → Except ε β} {e : ε} :
    (r >>= f) = .error e ↔ r = .error e ∨ ∃ a, r = .ok a ∧ f a = .error e := by
  cases r <;> simp

@[simp] theorem valueOf_some {α : Type} (v : α) : valueOf (some v) = .ok v := rfl

@[simp] theorem valueOf_none {α : Type} : valueOf (none : Option α) = .error .uninit := rfl

theorem valueOf_eq_ok {α : Type} {r : Option α} {v : α} : valueOf r = .ok v ↔ r = some v := by
  cases r <;> simp

theorem readX_some {s : State} {a : XReg} {v : Word64} (h : s.x[a] = some v) :
    s.readX a = .ok v := by simp only [State.readX, h, valueOf_some]

theorem readX_none {s : State} {a : XReg} (h : s.x[a] = none) : s.readX a = .error .uninit := by
  simp only [State.readX, h, valueOf_none]

theorem readF_some {s : State} {a : FReg} {v : Fq} (h : s.f[a] = some v) :
    s.readF a = .ok v := by simp only [State.readF, h, valueOf_some]

theorem readF_none {s : State} {a : FReg} (h : s.f[a] = none) : s.readF a = .error .uninit := by
  simp only [State.readF, h, valueOf_none]

theorem readP_held {s : State} {a : PReg} {form : Form} {e : Poly} (h : s.p[a] = .held form e) :
    s.readP a = .ok (form, e) := by simp only [State.readP, h]

theorem readP_empty {s : State} {a : PReg} (h : s.p[a] = .empty) : s.readP a = .error .uninit := by
  simp only [State.readP, h]

theorem readForm_held {s : State} {a : PReg} {form : Form} {e : Poly}
    (h : s.p[a] = .held form e) : s.readForm form a = .ok e := by
  simp [State.readForm, readP_held h]

theorem readForm_other {s : State} {a : PReg} {form other : Form} {e : Poly}
    (h : s.p[a] = .held other e) (hne : other ≠ form) : s.readForm form a = .error .form := by
  simp [State.readForm, readP_held h, hne]

theorem readForm_empty {s : State} {a : PReg} {form : Form} (h : s.p[a] = .empty) :
    s.readForm form a = .error .uninit := by simp [State.readForm, readP_empty h]

theorem readPair_held {s : State} {a b : PReg} {form : Form} {u v : Poly}
    (ha : s.p[a] = .held form u) (hb : s.p[b] = .held form v) :
    s.readPair a b = .ok (form, u, v) := by
  simp [State.readPair, readP_held ha, readP_held hb]

theorem readPair_mixed {s : State} {a b : PReg} {f1 f2 : Form} {u v : Poly}
    (ha : s.p[a] = .held f1 u) (hb : s.p[b] = .held f2 v) (hne : f1 ≠ f2) :
    s.readPair a b = .error .form := by
  simp [State.readPair, readP_held ha, readP_held hb, hne]

theorem readPair_empty {s : State} {a b : PReg} (h : s.p[a] = .empty ∨ s.p[b] = .empty) :
    s.readPair a b = .error .uninit := by
  rcases h with h | h
  · simp [State.readPair, readP_empty h]
  · cases ha : s.p[a] with
    | empty => simp [State.readPair, readP_empty ha]
    | held form e => simp [State.readPair, readP_held ha, readP_empty h]

theorem readSig_some {s : State} {sg : Signature} (h : s.sig = some sg) : s.readSig = .ok sg := by
  simp only [State.readSig, h]

theorem readSig_none {s : State} (h : s.sig = none) : s.readSig = .error .nosig := by
  simp only [State.readSig, h]

theorem readSig_eq_ok {s : State} {sg : Signature} : s.readSig = .ok sg ↔ s.sig = some sg := by
  unfold State.readSig
  split <;> simp_all

theorem allValues_some {n : Nat} {r : Vector (Option Word64) n} {v : Vector Word64 n}
    (h : ∀ i : Fin n, r[i] = some v[i]) : allValues r = .ok v := by
  have hall : r.toList.all Option.isSome = true := by
    simp only [List.all_eq_true, Vector.mem_toList_iff, Vector.mem_iff_getElem]
    rintro o ⟨i, hi, rfl⟩
    simpa using congrArg Option.isSome (h ⟨i, hi⟩)
  rw [allValues, if_pos hall]
  congr 1
  ext i hi
  have hi' : r[i] = some v[i] := h ⟨i, hi⟩
  simp [hi']

theorem allValues_none {n : Nat} {r : Vector (Option Word64) n} (h : ∃ i : Fin n, r[i] = none) :
    allValues r = .error .uninit := by
  obtain ⟨i, hi⟩ := h
  have hall : ¬ r.toList.all Option.isSome = true := by
    simp only [List.all_eq_true, Vector.mem_toList_iff, Vector.mem_iff_getElem]
    intro hc
    have := hc r[i] ⟨i.val, i.isLt, rfl⟩
    simp [hi] at this
  rw [allValues, if_neg hall]

theorem elementReg_lt {n : Nat} {idx : Idx} (h : idx.val < n) :
    elementReg n idx = .ok ⟨idx.val, h⟩ := dif_pos h

theorem elementReg_ge {n : Nat} {idx : Idx} (h : ¬ idx.val < n) :
    elementReg n idx = .error .illegal := dif_neg h

theorem requireWide_lt {g : Cfg} {v : Word64} (h : v.toNat < g.pWide) :
    requireWide g v = .ok () := if_pos h

theorem requireWide_ge {g : Cfg} {v : Word64} (h : g.pWide ≤ v.toNat) :
    requireWide g v = .error .range := if_neg (Nat.not_lt.2 h)

theorem requireWide_eq_ok {g : Cfg} {v : Word64} {r : Unit} :
    requireWide g v = .ok r ↔ v.toNat < g.pWide := by
  unfold requireWide
  split <;> simp_all

end Sys2Proof.Machine
end

