-- ==== Sys2Proof/Laws/State.lean ====
section
/-! SUPPORT. What each update of the state does to each field: one lemma per field per update. -/

namespace Sys2Proof.Machine

/-! ### `setX` -/

@[simp] theorem State.setX_x (s : State) (d : XReg) (v : Word64) :
    (s.setX d v).x = s.x.set d.val (some v) d.isLt := rfl
@[simp] theorem State.setX_f (s : State) (d : XReg) (v : Word64) :
    (s.setX d v).f = s.f := rfl
@[simp] theorem State.setX_p (s : State) (d : XReg) (v : Word64) :
    (s.setX d v).p = s.p := rfl
@[simp] theorem State.setX_m (s : State) (d : XReg) (v : Word64) :
    (s.setX d v).m = s.m := rfl
@[simp] theorem State.setX_n (s : State) (d : XReg) (v : Word64) :
    (s.setX d v).n = s.n := rfl
@[simp] theorem State.setX_c (s : State) (d : XReg) (v : Word64) :
    (s.setX d v).c = s.c := rfl
@[simp] theorem State.setX_sig (s : State) (d : XReg) (v : Word64) :
    (s.setX d v).sig = s.sig := rfl
@[simp] theorem State.setX_fault (s : State) (d : XReg) (v : Word64) :
    (s.setX d v).fault = s.fault := rfl
@[simp] theorem State.setX_err (s : State) (d : XReg) (v : Word64) :
    (s.setX d v).err = s.err := rfl
@[simp] theorem State.setX_fcmd (s : State) (d : XReg) (v : Word64) :
    (s.setX d v).fcmd = s.fcmd := rfl
@[simp] theorem State.setX_blen (s : State) (d : XReg) (v : Word64) :
    (s.setX d v).blen = s.blen := rfl
@[simp] theorem State.setX_buf (s : State) (d : XReg) (v : Word64) :
    (s.setX d v).buf = s.buf := rfl
@[simp] theorem State.setX_pending (s : State) (d : XReg) (v : Word64) :
    (s.setX d v).pending = s.pending := rfl
@[simp] theorem State.setX_reply (s : State) (d : XReg) (v : Word64) :
    (s.setX d v).reply = s.reply := rfl
@[simp] theorem State.setX_draws (s : State) (d : XReg) (v : Word64) :
    (s.setX d v).draws = s.draws := rfl
@[simp] theorem State.setX_resets (s : State) (d : XReg) (v : Word64) :
    (s.setX d v).resets = s.resets := rfl

/-! ### `setF` -/

@[simp] theorem State.setF_x (s : State) (d : FReg) (v : Fq) :
    (s.setF d v).x = s.x := rfl
@[simp] theorem State.setF_f (s : State) (d : FReg) (v : Fq) :
    (s.setF d v).f = s.f.set d.val (some v) d.isLt := rfl
@[simp] theorem State.setF_p (s : State) (d : FReg) (v : Fq) :
    (s.setF d v).p = s.p := rfl
@[simp] theorem State.setF_m (s : State) (d : FReg) (v : Fq) :
    (s.setF d v).m = s.m := rfl
@[simp] theorem State.setF_n (s : State) (d : FReg) (v : Fq) :
    (s.setF d v).n = s.n := rfl
@[simp] theorem State.setF_c (s : State) (d : FReg) (v : Fq) :
    (s.setF d v).c = s.c := rfl
@[simp] theorem State.setF_sig (s : State) (d : FReg) (v : Fq) :
    (s.setF d v).sig = s.sig := rfl
@[simp] theorem State.setF_fault (s : State) (d : FReg) (v : Fq) :
    (s.setF d v).fault = s.fault := rfl
@[simp] theorem State.setF_err (s : State) (d : FReg) (v : Fq) :
    (s.setF d v).err = s.err := rfl
@[simp] theorem State.setF_fcmd (s : State) (d : FReg) (v : Fq) :
    (s.setF d v).fcmd = s.fcmd := rfl
@[simp] theorem State.setF_blen (s : State) (d : FReg) (v : Fq) :
    (s.setF d v).blen = s.blen := rfl
@[simp] theorem State.setF_buf (s : State) (d : FReg) (v : Fq) :
    (s.setF d v).buf = s.buf := rfl
@[simp] theorem State.setF_pending (s : State) (d : FReg) (v : Fq) :
    (s.setF d v).pending = s.pending := rfl
@[simp] theorem State.setF_reply (s : State) (d : FReg) (v : Fq) :
    (s.setF d v).reply = s.reply := rfl
@[simp] theorem State.setF_draws (s : State) (d : FReg) (v : Fq) :
    (s.setF d v).draws = s.draws := rfl
@[simp] theorem State.setF_resets (s : State) (d : FReg) (v : Fq) :
    (s.setF d v).resets = s.resets := rfl

/-! ### `setP` -/

@[simp] theorem State.setP_x (s : State) (d : PReg) (form : Form) (e : Poly) :
    (s.setP d form e).x = s.x := rfl
@[simp] theorem State.setP_f (s : State) (d : PReg) (form : Form) (e : Poly) :
    (s.setP d form e).f = s.f := rfl
@[simp] theorem State.setP_p (s : State) (d : PReg) (form : Form) (e : Poly) :
    (s.setP d form e).p = s.p.set d.val (.held form e) d.isLt := rfl
@[simp] theorem State.setP_m (s : State) (d : PReg) (form : Form) (e : Poly) :
    (s.setP d form e).m = s.m := rfl
@[simp] theorem State.setP_n (s : State) (d : PReg) (form : Form) (e : Poly) :
    (s.setP d form e).n = s.n := rfl
@[simp] theorem State.setP_c (s : State) (d : PReg) (form : Form) (e : Poly) :
    (s.setP d form e).c = s.c := rfl
@[simp] theorem State.setP_sig (s : State) (d : PReg) (form : Form) (e : Poly) :
    (s.setP d form e).sig = s.sig := rfl
@[simp] theorem State.setP_fault (s : State) (d : PReg) (form : Form) (e : Poly) :
    (s.setP d form e).fault = s.fault := rfl
@[simp] theorem State.setP_err (s : State) (d : PReg) (form : Form) (e : Poly) :
    (s.setP d form e).err = s.err := rfl
@[simp] theorem State.setP_fcmd (s : State) (d : PReg) (form : Form) (e : Poly) :
    (s.setP d form e).fcmd = s.fcmd := rfl
@[simp] theorem State.setP_blen (s : State) (d : PReg) (form : Form) (e : Poly) :
    (s.setP d form e).blen = s.blen := rfl
@[simp] theorem State.setP_buf (s : State) (d : PReg) (form : Form) (e : Poly) :
    (s.setP d form e).buf = s.buf := rfl
@[simp] theorem State.setP_pending (s : State) (d : PReg) (form : Form) (e : Poly) :
    (s.setP d form e).pending = s.pending := rfl
@[simp] theorem State.setP_reply (s : State) (d : PReg) (form : Form) (e : Poly) :
    (s.setP d form e).reply = s.reply := rfl
@[simp] theorem State.setP_draws (s : State) (d : PReg) (form : Form) (e : Poly) :
    (s.setP d form e).draws = s.draws := rfl
@[simp] theorem State.setP_resets (s : State) (d : PReg) (form : Form) (e : Poly) :
    (s.setP d form e).resets = s.resets := rfl

/-! ### `setM` -/

@[simp] theorem State.setM_x (s : State) (i : Fin 4) (v : Word64) :
    (s.setM i v).x = s.x := rfl
@[simp] theorem State.setM_f (s : State) (i : Fin 4) (v : Word64) :
    (s.setM i v).f = s.f := rfl
@[simp] theorem State.setM_p (s : State) (i : Fin 4) (v : Word64) :
    (s.setM i v).p = s.p := rfl
@[simp] theorem State.setM_m (s : State) (i : Fin 4) (v : Word64) :
    (s.setM i v).m = s.m.set i.val (some v) i.isLt := rfl
@[simp] theorem State.setM_n (s : State) (i : Fin 4) (v : Word64) :
    (s.setM i v).n = s.n := rfl
@[simp] theorem State.setM_c (s : State) (i : Fin 4) (v : Word64) :
    (s.setM i v).c = s.c := rfl
@[simp] theorem State.setM_sig (s : State) (i : Fin 4) (v : Word64) :
    (s.setM i v).sig = s.sig := rfl
@[simp] theorem State.setM_fault (s : State) (i : Fin 4) (v : Word64) :
    (s.setM i v).fault = s.fault := rfl
@[simp] theorem State.setM_err (s : State) (i : Fin 4) (v : Word64) :
    (s.setM i v).err = s.err := rfl
@[simp] theorem State.setM_fcmd (s : State) (i : Fin 4) (v : Word64) :
    (s.setM i v).fcmd = s.fcmd := rfl
@[simp] theorem State.setM_blen (s : State) (i : Fin 4) (v : Word64) :
    (s.setM i v).blen = s.blen := rfl
@[simp] theorem State.setM_buf (s : State) (i : Fin 4) (v : Word64) :
    (s.setM i v).buf = s.buf := rfl
@[simp] theorem State.setM_pending (s : State) (i : Fin 4) (v : Word64) :
    (s.setM i v).pending = s.pending := rfl
@[simp] theorem State.setM_reply (s : State) (i : Fin 4) (v : Word64) :
    (s.setM i v).reply = s.reply := rfl
@[simp] theorem State.setM_draws (s : State) (i : Fin 4) (v : Word64) :
    (s.setM i v).draws = s.draws := rfl
@[simp] theorem State.setM_resets (s : State) (i : Fin 4) (v : Word64) :
    (s.setM i v).resets = s.resets := rfl

/-! ### `setN` -/

@[simp] theorem State.setN_x (s : State) (i : Fin 8) (v : Word64) :
    (s.setN i v).x = s.x := rfl
@[simp] theorem State.setN_f (s : State) (i : Fin 8) (v : Word64) :
    (s.setN i v).f = s.f := rfl
@[simp] theorem State.setN_p (s : State) (i : Fin 8) (v : Word64) :
    (s.setN i v).p = s.p := rfl
@[simp] theorem State.setN_m (s : State) (i : Fin 8) (v : Word64) :
    (s.setN i v).m = s.m := rfl
@[simp] theorem State.setN_n (s : State) (i : Fin 8) (v : Word64) :
    (s.setN i v).n = s.n.set i.val (some v) i.isLt := rfl
@[simp] theorem State.setN_c (s : State) (i : Fin 8) (v : Word64) :
    (s.setN i v).c = s.c := rfl
@[simp] theorem State.setN_sig (s : State) (i : Fin 8) (v : Word64) :
    (s.setN i v).sig = s.sig := rfl
@[simp] theorem State.setN_fault (s : State) (i : Fin 8) (v : Word64) :
    (s.setN i v).fault = s.fault := rfl
@[simp] theorem State.setN_err (s : State) (i : Fin 8) (v : Word64) :
    (s.setN i v).err = s.err := rfl
@[simp] theorem State.setN_fcmd (s : State) (i : Fin 8) (v : Word64) :
    (s.setN i v).fcmd = s.fcmd := rfl
@[simp] theorem State.setN_blen (s : State) (i : Fin 8) (v : Word64) :
    (s.setN i v).blen = s.blen := rfl
@[simp] theorem State.setN_buf (s : State) (i : Fin 8) (v : Word64) :
    (s.setN i v).buf = s.buf := rfl
@[simp] theorem State.setN_pending (s : State) (i : Fin 8) (v : Word64) :
    (s.setN i v).pending = s.pending := rfl
@[simp] theorem State.setN_reply (s : State) (i : Fin 8) (v : Word64) :
    (s.setN i v).reply = s.reply := rfl
@[simp] theorem State.setN_draws (s : State) (i : Fin 8) (v : Word64) :
    (s.setN i v).draws = s.draws := rfl
@[simp] theorem State.setN_resets (s : State) (i : Fin 8) (v : Word64) :
    (s.setN i v).resets = s.resets := rfl

/-! ### `setC` -/

@[simp] theorem State.setC_x (s : State) (i : Fin 4) (v : Word64) :
    (s.setC i v).x = s.x := rfl
@[simp] theorem State.setC_f (s : State) (i : Fin 4) (v : Word64) :
    (s.setC i v).f = s.f := rfl
@[simp] theorem State.setC_p (s : State) (i : Fin 4) (v : Word64) :
    (s.setC i v).p = s.p := rfl
@[simp] theorem State.setC_m (s : State) (i : Fin 4) (v : Word64) :
    (s.setC i v).m = s.m := rfl
@[simp] theorem State.setC_n (s : State) (i : Fin 4) (v : Word64) :
    (s.setC i v).n = s.n := rfl
@[simp] theorem State.setC_c (s : State) (i : Fin 4) (v : Word64) :
    (s.setC i v).c = s.c.set i.val (some v) i.isLt := rfl
@[simp] theorem State.setC_sig (s : State) (i : Fin 4) (v : Word64) :
    (s.setC i v).sig = s.sig := rfl
@[simp] theorem State.setC_fault (s : State) (i : Fin 4) (v : Word64) :
    (s.setC i v).fault = s.fault := rfl
@[simp] theorem State.setC_err (s : State) (i : Fin 4) (v : Word64) :
    (s.setC i v).err = s.err := rfl
@[simp] theorem State.setC_fcmd (s : State) (i : Fin 4) (v : Word64) :
    (s.setC i v).fcmd = s.fcmd := rfl
@[simp] theorem State.setC_blen (s : State) (i : Fin 4) (v : Word64) :
    (s.setC i v).blen = s.blen := rfl
@[simp] theorem State.setC_buf (s : State) (i : Fin 4) (v : Word64) :
    (s.setC i v).buf = s.buf := rfl
@[simp] theorem State.setC_pending (s : State) (i : Fin 4) (v : Word64) :
    (s.setC i v).pending = s.pending := rfl
@[simp] theorem State.setC_reply (s : State) (i : Fin 4) (v : Word64) :
    (s.setC i v).reply = s.reply := rfl
@[simp] theorem State.setC_draws (s : State) (i : Fin 4) (v : Word64) :
    (s.setC i v).draws = s.draws := rfl
@[simp] theorem State.setC_resets (s : State) (i : Fin 4) (v : Word64) :
    (s.setC i v).resets = s.resets := rfl

/-! ### `writeBufBytes` -/

@[simp] theorem State.writeBufBytes_x (s : State) (a : Nat) (bytes : List Byte) :
    (s.writeBufBytes a bytes).x = s.x := rfl
@[simp] theorem State.writeBufBytes_f (s : State) (a : Nat) (bytes : List Byte) :
    (s.writeBufBytes a bytes).f = s.f := rfl
@[simp] theorem State.writeBufBytes_p (s : State) (a : Nat) (bytes : List Byte) :
    (s.writeBufBytes a bytes).p = s.p := rfl
@[simp] theorem State.writeBufBytes_m (s : State) (a : Nat) (bytes : List Byte) :
    (s.writeBufBytes a bytes).m = s.m := rfl
@[simp] theorem State.writeBufBytes_n (s : State) (a : Nat) (bytes : List Byte) :
    (s.writeBufBytes a bytes).n = s.n := rfl
@[simp] theorem State.writeBufBytes_c (s : State) (a : Nat) (bytes : List Byte) :
    (s.writeBufBytes a bytes).c = s.c := rfl
@[simp] theorem State.writeBufBytes_sig (s : State) (a : Nat) (bytes : List Byte) :
    (s.writeBufBytes a bytes).sig = s.sig := rfl
@[simp] theorem State.writeBufBytes_fault (s : State) (a : Nat) (bytes : List Byte) :
    (s.writeBufBytes a bytes).fault = s.fault := rfl
@[simp] theorem State.writeBufBytes_err (s : State) (a : Nat) (bytes : List Byte) :
    (s.writeBufBytes a bytes).err = s.err := rfl
@[simp] theorem State.writeBufBytes_fcmd (s : State) (a : Nat) (bytes : List Byte) :
    (s.writeBufBytes a bytes).fcmd = s.fcmd := rfl
@[simp] theorem State.writeBufBytes_blen (s : State) (a : Nat) (bytes : List Byte) :
    (s.writeBufBytes a bytes).blen = s.blen := rfl
@[simp] theorem State.writeBufBytes_buf (s : State) (a : Nat) (bytes : List Byte) :
    (s.writeBufBytes a bytes).buf = s.buf.writeBytes a bytes := rfl
@[simp] theorem State.writeBufBytes_pending (s : State) (a : Nat) (bytes : List Byte) :
    (s.writeBufBytes a bytes).pending = s.pending := rfl
@[simp] theorem State.writeBufBytes_reply (s : State) (a : Nat) (bytes : List Byte) :
    (s.writeBufBytes a bytes).reply = s.reply := rfl
@[simp] theorem State.writeBufBytes_draws (s : State) (a : Nat) (bytes : List Byte) :
    (s.writeBufBytes a bytes).draws = s.draws := rfl
@[simp] theorem State.writeBufBytes_resets (s : State) (a : Nat) (bytes : List Byte) :
    (s.writeBufBytes a bytes).resets = s.resets := rfl

/-! ### `afterReset` -/

@[simp] theorem State.afterReset_x (s : State) :
    s.afterReset.x = State.reset.x := rfl
@[simp] theorem State.afterReset_f (s : State) :
    s.afterReset.f = State.reset.f := rfl
@[simp] theorem State.afterReset_p (s : State) :
    s.afterReset.p = State.reset.p := rfl
@[simp] theorem State.afterReset_m (s : State) :
    s.afterReset.m = State.reset.m := rfl
@[simp] theorem State.afterReset_n (s : State) :
    s.afterReset.n = State.reset.n := rfl
@[simp] theorem State.afterReset_c (s : State) :
    s.afterReset.c = State.reset.c := rfl
@[simp] theorem State.afterReset_sig (s : State) :
    s.afterReset.sig = State.reset.sig := rfl
@[simp] theorem State.afterReset_fault (s : State) :
    s.afterReset.fault = State.reset.fault := rfl
@[simp] theorem State.afterReset_err (s : State) :
    s.afterReset.err = State.reset.err := rfl
@[simp] theorem State.afterReset_fcmd (s : State) :
    s.afterReset.fcmd = State.reset.fcmd := rfl
@[simp] theorem State.afterReset_blen (s : State) :
    s.afterReset.blen = State.reset.blen := rfl
@[simp] theorem State.afterReset_buf (s : State) :
    s.afterReset.buf = State.reset.buf := rfl
@[simp] theorem State.afterReset_pending (s : State) :
    s.afterReset.pending = s.pending := rfl
@[simp] theorem State.afterReset_reply (s : State) :
    s.afterReset.reply = s.reply := rfl
@[simp] theorem State.afterReset_draws (s : State) :
    s.afterReset.draws = s.draws := rfl
@[simp] theorem State.afterReset_resets (s : State) :
    s.afterReset.resets = s.resets + 1 := rfl

/-! ### `takeFault` -/

@[simp] theorem takeFault_x (code : FaultCode) (w : Word32) (s : State) :
    (takeFault code w s).x = s.x := rfl
@[simp] theorem takeFault_f (code : FaultCode) (w : Word32) (s : State) :
    (takeFault code w s).f = s.f := rfl
@[simp] theorem takeFault_p (code : FaultCode) (w : Word32) (s : State) :
    (takeFault code w s).p = s.p := rfl
@[simp] theorem takeFault_m (code : FaultCode) (w : Word32) (s : State) :
    (takeFault code w s).m = s.m := rfl
@[simp] theorem takeFault_n (code : FaultCode) (w : Word32) (s : State) :
    (takeFault code w s).n = s.n := rfl
@[simp] theorem takeFault_c (code : FaultCode) (w : Word32) (s : State) :
    (takeFault code w s).c = s.c := rfl
@[simp] theorem takeFault_sig (code : FaultCode) (w : Word32) (s : State) :
    (takeFault code w s).sig = s.sig := rfl
@[simp] theorem takeFault_fault (code : FaultCode) (w : Word32) (s : State) :
    (takeFault code w s).fault = some code := rfl
@[simp] theorem takeFault_err (code : FaultCode) (w : Word32) (s : State) :
    (takeFault code w s).err = s.err := rfl
@[simp] theorem takeFault_fcmd (code : FaultCode) (w : Word32) (s : State) :
    (takeFault code w s).fcmd = w := rfl
@[simp] theorem takeFault_blen (code : FaultCode) (w : Word32) (s : State) :
    (takeFault code w s).blen = s.blen := rfl
@[simp] theorem takeFault_buf (code : FaultCode) (w : Word32) (s : State) :
    (takeFault code w s).buf = s.buf := rfl
@[simp] theorem takeFault_pending (code : FaultCode) (w : Word32) (s : State) :
    (takeFault code w s).pending = s.pending := rfl
@[simp] theorem takeFault_reply (code : FaultCode) (w : Word32) (s : State) :
    (takeFault code w s).reply = s.reply := rfl
@[simp] theorem takeFault_draws (code : FaultCode) (w : Word32) (s : State) :
    (takeFault code w s).draws = s.draws := rfl
@[simp] theorem takeFault_resets (code : FaultCode) (w : Word32) (s : State) :
    (takeFault code w s).resets = s.resets := rfl

/-! ### `answer` -/

@[simp] theorem State.answer_x (s : State) (r : Reply) :
    (s.answer r).x = s.x := rfl
@[simp] theorem State.answer_f (s : State) (r : Reply) :
    (s.answer r).f = s.f := rfl
@[simp] theorem State.answer_p (s : State) (r : Reply) :
    (s.answer r).p = s.p := rfl
@[simp] theorem State.answer_m (s : State) (r : Reply) :
    (s.answer r).m = s.m := rfl
@[simp] theorem State.answer_n (s : State) (r : Reply) :
    (s.answer r).n = s.n := rfl
@[simp] theorem State.answer_c (s : State) (r : Reply) :
    (s.answer r).c = s.c := rfl
@[simp] theorem State.answer_sig (s : State) (r : Reply) :
    (s.answer r).sig = s.sig := rfl
@[simp] theorem State.answer_fault (s : State) (r : Reply) :
    (s.answer r).fault = s.fault := rfl
@[simp] theorem State.answer_err (s : State) (r : Reply) :
    (s.answer r).err = s.err := rfl
@[simp] theorem State.answer_fcmd (s : State) (r : Reply) :
    (s.answer r).fcmd = s.fcmd := rfl
@[simp] theorem State.answer_blen (s : State) (r : Reply) :
    (s.answer r).blen = s.blen := rfl
@[simp] theorem State.answer_buf (s : State) (r : Reply) :
    (s.answer r).buf = s.buf := rfl
@[simp] theorem State.answer_pending (s : State) (r : Reply) :
    (s.answer r).pending = s.pending := rfl
@[simp] theorem State.answer_reply (s : State) (r : Reply) :
    (s.answer r).reply = some r := rfl
@[simp] theorem State.answer_draws (s : State) (r : Reply) :
    (s.answer r).draws = s.draws := rfl
@[simp] theorem State.answer_resets (s : State) (r : Reply) :
    (s.answer r).resets = s.resets := rfl

/-! ### `answerFree` -/

@[simp] theorem State.answerFree_x (s : State) (r : Nat → Reply) :
    (s.answerFree r).x = s.x := rfl
@[simp] theorem State.answerFree_f (s : State) (r : Nat → Reply) :
    (s.answerFree r).f = s.f := rfl
@[simp] theorem State.answerFree_p (s : State) (r : Nat → Reply) :
    (s.answerFree r).p = s.p := rfl
@[simp] theorem State.answerFree_m (s : State) (r : Nat → Reply) :
    (s.answerFree r).m = s.m := rfl
@[simp] theorem State.answerFree_n (s : State) (r : Nat → Reply) :
    (s.answerFree r).n = s.n := rfl
@[simp] theorem State.answerFree_c (s : State) (r : Nat → Reply) :
    (s.answerFree r).c = s.c := rfl
@[simp] theorem State.answerFree_sig (s : State) (r : Nat → Reply) :
    (s.answerFree r).sig = s.sig := rfl
@[simp] theorem State.answerFree_fault (s : State) (r : Nat → Reply) :
    (s.answerFree r).fault = s.fault := rfl
@[simp] theorem State.answerFree_err (s : State) (r : Nat → Reply) :
    (s.answerFree r).err = s.err := rfl
@[simp] theorem State.answerFree_fcmd (s : State) (r : Nat → Reply) :
    (s.answerFree r).fcmd = s.fcmd := rfl
@[simp] theorem State.answerFree_blen (s : State) (r : Nat → Reply) :
    (s.answerFree r).blen = s.blen := rfl
@[simp] theorem State.answerFree_buf (s : State) (r : Nat → Reply) :
    (s.answerFree r).buf = s.buf := rfl
@[simp] theorem State.answerFree_pending (s : State) (r : Nat → Reply) :
    (s.answerFree r).pending = s.pending := rfl
@[simp] theorem State.answerFree_reply (s : State) (r : Nat → Reply) :
    (s.answerFree r).reply = some (r s.draws) := rfl
@[simp] theorem State.answerFree_draws (s : State) (r : Nat → Reply) :
    (s.answerFree r).draws = s.draws + 1 := rfl
@[simp] theorem State.answerFree_resets (s : State) (r : Nat → Reply) :
    (s.answerFree r).resets = s.resets := rfl

end Sys2Proof.Machine
end

