-- ==== Sys2Proof/Laws/Commands.lean ====
section
/-! SUPPORT. Everything a command can do, said once (`exec_cases`), and everything a step can do
(`step_cases`): later proofs cite these and do not unfold `exec` or `step`. -/

namespace Sys2Proof.Machine

/-- The ways a command that raises no fault changes the state. -/
inductive Effect (i : Instr) (s : State) : State → Prop where
  | x (d : XReg) (v : Word64) : Effect i s (s.setX d v)
  | f (d : FReg) (v : Fq) : Effect i s (s.setF d v)
  | p (d : PReg) (form : Form) (e : Poly) : Effect i s (s.setP d form e)
  | m (k : Fin 4) (v : Word64) (hv : v.toNat < Config.cfg.pWide) : Effect i s (s.setM k v)
  | n (k : Fin 8) (v : Word64) (hv : v.toNat < Config.cfg.pWide) : Effect i s (s.setN k v)
  | c (k : Fin 4) (v : Word64) : Effect i s (s.setC k v)
  | decoded (d : PReg) (e : Poly) (hi : i = .pkdec d ∨ i = .sgdec d) :
      Effect i s { s.setP d .coef e with err := none }
  | undecoded (d : PReg) (e : DecodeError) (hi : i = .pkdec d ∨ i = .sgdec d) :
      Effect i s { s with err := some e }
  | loaded (sg : Signature) (hi : i = .load) (hb : s.blen.toNat = serLen)
      (hd : decodeContext Config.cfg s = .ok sg) : Effect i s { s with sig := some sg, err := none }
  | unloaded (e : DecodeError) (hi : i = .load) : Effect i s { s with sig := none, err := some e }
  | stored (sg : Signature) (hi : i = .store) (hs : s.sig = some sg) :
      Effect i s
        { s.writeBufBytes 0 (sg.pkb.toList ++ sg.sgb.toList) with blen := BitVec.ofNat 11 serLen }
  | nonce (sg : Signature) (hi : i = .getn) (hs : s.sig = some sg) :
      Effect i s { s with n := tabulate 8 fun j => some (nonceElements sg.sgb)[j] }

/-- A command that ends in its effect is one of `Effect`, once its checked part is. -/
theorem finish_cases {i : Instr} {s t : State} {r : Except FaultCode State}
    (h : finish (encode i) s r = .next t) (hr : ∀ u, r = .ok u → Effect i s u) :
    Effect i s t ∨ ∃ code, t = takeFault code (encode i) s := by
  rcases finish_eq_next.1 h with h | ⟨code, -, h⟩
  · exact .inl (hr t h)
  · exact .inr ⟨code, h.symm⟩

theorem putDecoded_effect {i : Instr} {d : PReg} (s : State) (r : Except DecodeError Poly)
    (hi : i = .pkdec d ∨ i = .sgdec d) : Effect i s (putDecoded d s r) := by
  cases r with
  | ok e => exact .decoded d e hi
  | error e => exact .undecoded d e hi

theorem putContext_effect (s : State) (r : Except DecodeError Signature)
    (hr : ∀ sg, r = .ok sg → s.blen.toNat = serLen ∧ decodeContext Config.cfg s = .ok sg) :
    Effect .load s (putContext s r) := by
  cases r with
  | ok sg => exact .loaded sg rfl (hr sg rfl).1 (hr sg rfl).2
  | error e => exact .unloaded e rfl

/-- Everything a command can do. -/
theorem exec_cases {i : Instr} {s t : State} (h : exec i s = .next t) :
    Effect i s t ∨ ∃ code, t = takeFault code (encode i) s := by
  cases i
  all_goals simp only [exec, execFredu, execFreds, execFadd, execFsub, execFmul, execFint, execPzero,
    execPset, execPget, execNtt, nttWith, execIntt, inttWith, execHadam, execPsub, execNormsq, execPeq,
    execPkdec, execSgdec, sgdecWith, execMset, msetWith, execNset, nsetWith, execH2p, h2pWith,
    execLoad, loadWith, execStore, execGetn, execGeth, execGets, execCset, execVerify,
    verifyWith] at h
  case pkdec d =>
    exact finish_cases h fun u hu => by cases hu; exact putDecoded_effect s _ (.inl rfl)
  case sgdec d =>
    exact finish_cases h fun u hu => by cases hu; exact putDecoded_effect s _ (.inr rfl)
  case load =>
    refine finish_cases h fun u hu => ?_
    cases hu
    refine putContext_effect s _ fun sg hsg => ?_
    split at hsg
    · cases hsg
    · exact ⟨by omega, hsg⟩
  all_goals
    refine finish_cases h fun u hu => ?_
    simp only [except_bind_eq_ok, Except.ok.injEq] at hu
  case fredu d a => obtain ⟨_, _, rfl⟩ := hu; exact .f _ _
  case freds d a => obtain ⟨_, _, rfl⟩ := hu; exact .f _ _
  case fadd d a b => obtain ⟨_, _, _, _, rfl⟩ := hu; exact .f _ _
  case fsub d a b => obtain ⟨_, _, _, _, rfl⟩ := hu; exact .f _ _
  case fmul d a b => obtain ⟨_, _, _, _, rfl⟩ := hu; exact .f _ _
  case fint d a => obtain ⟨_, _, rfl⟩ := hu; exact .x _ _
  case pzero d => subst hu; exact .p _ _ _
  case pset d a k => obtain ⟨_, _, _, _, rfl⟩ := hu; exact .p _ _ _
  case pget d a k => obtain ⟨_, _, rfl⟩ := hu; exact .f _ _
  case ntt d a => obtain ⟨_, _, rfl⟩ := hu; exact .p _ _ _
  case intt d a => obtain ⟨_, _, rfl⟩ := hu; exact .p _ _ _
  case hadam d a b => obtain ⟨_, _, _, _, rfl⟩ := hu; exact .p _ _ _
  case psub d a b => obtain ⟨_, _, rfl⟩ := hu; exact .p _ _ _
  case normsq d a => obtain ⟨_, _, rfl⟩ := hu; exact .x _ _
  case peq d a b => obtain ⟨_, _, rfl⟩ := hu; exact .x _ _
  case mset a k => obtain ⟨_, _, _, _, _, hw, rfl⟩ := hu; exact .m _ _ (requireWide_eq_ok.1 hw)
  case nset a k => obtain ⟨_, _, _, _, _, hw, rfl⟩ := hu; exact .n _ _ (requireWide_eq_ok.1 hw)
  case h2p d => obtain ⟨_, _, _, _, rfl⟩ := hu; exact .p _ _ _
  case store => obtain ⟨sg, hs, rfl⟩ := hu; exact .stored sg rfl (readSig_eq_ok.1 hs)
  case getn => obtain ⟨sg, hs, rfl⟩ := hu; exact .nonce sg rfl (readSig_eq_ok.1 hs)
  case geth d => obtain ⟨_, _, rfl⟩ := hu; exact .p _ _ _
  case gets d => obtain ⟨_, _, rfl⟩ := hu; exact .p _ _ _
  case cset a k => obtain ⟨_, _, _, _, rfl⟩ := hu; exact .c _ _
  case verify d => obtain ⟨_, _, _, _, rfl⟩ := hu; exact .x _ _

/-- Every command completes. -/
theorem finish_completes (w : Word32) (s : State) (r : Except FaultCode State) :
    ∃ t, finish w s r = .next t := by cases r <;> exact ⟨_, rfl⟩

/-- Everything the write of a command word can do (rule R104). -/
theorem issue_cases {w : Word32} {s t : State} (h : issue w s = .next t) :
    (s.fault ≠ none ∧ t = s) ∨
    (s.fault = none ∧ t = takeFault .illegal w s ∧ ∃ e, decode w = .error e) ∨
    (s.fault = none ∧ ∃ i, decode w = .ok i ∧ exec i s = .next t) := by
  unfold issue at h
  cases hf : s.fault with
  | some code => left; simpa [hf, eq_comm] using h
  | none =>
    right
    simp only [hf, Option.isSome_none, Bool.false_eq_true, if_false] at h
    cases hd : decode w with
    | ok i => right; exact ⟨rfl, i, rfl, by simpa [hd] using h⟩
    | error e => left; refine ⟨rfl, ?_, e, rfl⟩; simpa [hd, eq_comm] using h

/-- Everything a step can do, by the action that is next. -/
theorem step_cases {s t : State} (h : step s = .next t) :
    (s.pending = [] ∧ t = s) ∨
    ∃ input rest, s.pending = input :: rest ∧ perform input { s with pending := rest } = .next t := by
  unfold step at h
  cases hp : s.pending with
  | nil => left; simpa [hp, eq_comm] using h
  | cons input rest => right; exact ⟨input, rest, rfl, by simpa [hp] using h⟩

theorem step_of_pending {s : State} {input : Input} {rest : List Input}
    (h : s.pending = input :: rest) : step s = perform input { s with pending := rest } := by
  simp [step, h]

theorem xOfCsr_x (i : Fin 16) : xOfCsr (0x10 + i.val) = some i := by
  have h : 0x10 ≤ 0x10 + i.val ∧ 0x10 + i.val ≤ 0x1F := by omega
  simp [xOfCsr, h]

theorem xOfCsr_none {num : Nat} (h : num < 0x10 ∨ 0x1F < num) : xOfCsr num = none := by
  have h' : ¬ (0x10 ≤ num ∧ num ≤ 0x1F) := by omega
  simp [xOfCsr, h']

/-- A host read of an `x` register looks at that register. -/
theorem csrValue_x (i : Fin 16) (s : State) : csrValue (0x10 + i.val) s = s.x[i] := by
  have h : ∀ k, k < 0x10 → ¬ 0x10 + i.val = k := fun k hk => by omega
  simp [csrValue, h, xOfCsr_x]

/-- A write-only or unlisted number has no value to read. -/
theorem csrValue_none {num : Nat} (h : (0x03 < num ∧ num < 0x10) ∨ 0x1F < num) (s : State) :
    csrValue num s = none := by
  have h' : ∀ k, k ≤ 0x03 → ¬ num = k := fun k hk => by omega
  simp [csrValue, h', xOfCsr_none (show num < 0x10 ∨ 0x1F < num by omega)]

/-- Everything a host read of a control register can do: it answers the register's value, or a free
word where there is none. -/
theorem hostReadCsr_cases (num : Nat) (s : State) :
    (∃ v, csrValue num s = some v ∧ hostReadCsr num s = s.answer (.word v)) ∨
    (csrValue num s = none ∧
      hostReadCsr num s = s.answerFree fun n => .word (Config.freeWord n)) := by
  unfold hostReadCsr
  cases h : csrValue num s with
  | some v => exact .inl ⟨v, rfl, rfl⟩
  | none => exact .inr ⟨rfl, rfl⟩

/-- Everything a host read of `BUF` can do. -/
theorem hostReadBuf_cases (a : Nat) (s : State) :
    (a < serLen ∧ hostReadBuf a s = s.answer (.byte (s.bufByte a))) ∨
    (serLen ≤ a ∧ hostReadBuf a s = s.answerFree fun n => .byte (Config.freeByte n)) := by
  unfold hostReadBuf
  split
  · exact .inl ⟨‹_›, rfl⟩
  · exact .inr ⟨Nat.not_lt.1 ‹_›, rfl⟩

end Sys2Proof.Machine
end

