-- ==== Sys2Proof/Laws/Encoding.lean ====
section
/-! SUPPORT. The fields of a command word: packing then reading gives the fields, reading then packing
gives the word (rule R101). -/

namespace Sys2Proof

/-- Each field fits its bits (rule R101). -/
structure Fields.Fits (F : Fields) : Prop where
  op : F.op < 256
  rd : F.rd < 16
  ra : F.ra < 16
  rb : F.rb < 16
  z : F.z < 8
  idx : F.idx < 512

theorem fieldsOf_fits (w : Word32) : (fieldsOf w).Fits := by
  have := w.isLt
  constructor <;> simp only [fieldsOf] <;> omega

theorem fieldsOf_packFields {F : Fields} (h : F.Fits) : fieldsOf (packFields F) = F := by
  obtain ⟨op, rd, ra, rb, z, idx⟩ := F
  obtain ⟨h1, h2, h3, h4, h5, h6⟩ := h
  simp only at h1 h2 h3 h4 h5 h6
  simp only [fieldsOf, packFields, BitVec.toNat_ofNat, Fields.mk.injEq]
  refine ⟨?_, ?_, ?_, ?_, ?_, ?_⟩ <;> omega

theorem packFields_fieldsOf (w : Word32) : packFields (fieldsOf w) = w := by
  apply BitVec.eq_of_toNat_eq
  have := w.isLt
  simp only [fieldsOf, packFields, BitVec.toNat_ofNat]
  omega

theorem encodeFields_fits (i : Instr) : (encodeFields i).Fits := by
  cases i <;> constructor <;> simp only [encodeFields] <;> omega

theorem reg16_val (v : Fin 16) : reg16 v.val = v := Fin.ext (Nat.mod_eq_of_lt v.isLt)

theorem coeffIdx_val (v : Idx) : coeffIdx v.val = v := Fin.ext (Nat.mod_eq_of_lt v.isLt)

theorem polyReg_val (v : PReg) : polyReg v.val = .ok v := by simp [polyReg]

theorem polyReg_eq_ok {v : Nat} {r : PReg} : polyReg v = .ok r ↔ v = r.val := by
  unfold polyReg
  split
  · simp [Fin.ext_iff]
  · simp; omega

theorem elementIdx_eq_ok {n v : Nat} {i : Idx} (hv : v < 512) :
    elementIdx n v = .ok i ↔ v = i.val ∧ v < n := by
  unfold elementIdx coeffIdx
  split <;> simp [Fin.ext_iff] <;> omega

theorem requireZero_eq_ok {fs : List Nat} : requireZero fs = .ok () ↔ ∀ v ∈ fs, v = 0 := by
  unfold requireZero
  split
  case isTrue h => simpa using h
  case isFalse h => simpa using h

end Sys2Proof
end

