-- ==== Sys2Proof/Laws/Memory.lean ====
section
/-! SUPPORT. `BUF`: what is read after a write, what a write leaves alone, and that every memory
operation keeps the canonical form. -/

namespace Sys2Proof.Machine

/-- The memory of `State.reset` is in canonical form. -/
theorem Memory.wf_nil : Memory.wf [] := ⟨List.Pairwise.nil, fun _ h => by simp at h⟩

/-! ### One byte -/

theorem Memory.read_write (b : Memory) (a k : Nat) (v : Byte) :
    (b.write a v).read k = if k = a then some v else b.read k := by
  induction b with
  | nil => simp [Memory.write, Memory.read, eq_comm]
  | cons c t ih =>
    obtain ⟨key, u⟩ := c
    simp only [Memory.write]
    split
    · simp [Memory.read, eq_comm]
    · split
      case isTrue _ h => subst h; by_cases hk : a = k <;> simp [Memory.read, hk, eq_comm (a := k)]
      case isFalse _ h =>
        by_cases hk : key = k
        · subst hk; simp [Memory.read, eq_comm (a := key), h]
        · simp [Memory.read, hk, ih]

theorem Memory.mem_write {b : Memory} {a : Nat} {v : Byte} {c : Host.Cell}
    (h : c ∈ b.write a v) : c = (a, v) ∨ c ∈ b := by
  induction b with
  | nil => simpa [Memory.write] using h
  | cons d t ih =>
    simp only [Memory.write] at h
    split at h
    · simpa using h
    · split at h
      · rcases List.mem_cons.1 h with h | h <;> simp [h]
      · rcases List.mem_cons.1 h with h | h
        · simp [h]
        · rcases ih h with h | h <;> simp [h]

/-- Writing a byte inside `BUF` keeps the canonical form. -/
theorem Memory.wf_write {b : Memory} (hb : b.wf) {a : Nat} (ha : a < serLen) (v : Byte) :
    (b.write a v).wf := by
  refine ⟨?_, fun c hc => ?_⟩
  · have hp := hb.1
    clear hb
    induction b with
    | nil => simp [Memory.write]
    | cons d t ih =>
      obtain ⟨key, u⟩ := d
      rw [List.pairwise_cons] at hp
      simp only [Memory.write]
      split
      case isTrue h =>
        refine List.pairwise_cons.2 ⟨fun c hc => ?_, List.pairwise_cons.2 hp⟩
        rcases List.mem_cons.1 hc with hc | hc
        · simpa [hc] using h
        · exact lt_trans h (hp.1 c hc)
      case isFalse h =>
        split
        case isTrue h' => subst h'; exact List.pairwise_cons.2 hp
        case isFalse h' =>
          refine List.pairwise_cons.2 ⟨fun c hc => ?_, ih hp.2⟩
          rcases Memory.mem_write hc with hc | hc
          · subst hc; show key < a; omega
          · exact hp.1 c hc
  · rcases Memory.mem_write hc with hc | hc
    · simpa [hc] using ha
    · exact hb.2 c hc

/-! ### A byte sequence -/

theorem Memory.read_append (b d : Memory) (k : Nat) :
    Memory.read (b ++ d) k = (b.read k).or (d.read k) := by
  induction b with
  | nil => simp [Memory.read]
  | cons c t ih => simp only [List.cons_append, Memory.read]; split <;> simp [ih]

theorem Memory.read_filter (b : Memory) (p : Nat → Bool) (k : Nat) :
    Memory.read (b.filter fun c => p c.1) k = if p k then b.read k else none := by
  induction b with
  | nil => simp [Memory.read]
  | cons c t ih =>
    obtain ⟨key, u⟩ := c
    by_cases hp : p key
    · by_cases hk : key = k
      · subst hk; simp [Memory.read, hp]
      · simp [Memory.read, hp, hk, ih]
    · by_cases hk : key = k
      · subst hk; simp [ih, hp]
      · simp [Memory.read, hp, hk, ih]

theorem read_cellsAt (bytes : List Byte) (a k : Nat) :
    Memory.read (cellsAt a bytes) k = if a ≤ k then bytes[k - a]? else none := by
  induction bytes generalizing a with
  | nil => simp [cellsAt, Memory.read]
  | cons v vs ih =>
    simp only [cellsAt, Memory.read]
    by_cases hk : a = k
    · simp [hk]
    · by_cases hle : a ≤ k
      · have h1 : a + 1 ≤ k := by omega
        have h2 : k - a = (k - (a + 1)) + 1 := by omega
        rw [if_neg hk, ih, if_pos h1, if_pos hle, h2, List.getElem?_cons_succ]
      · have h1 : ¬ a + 1 ≤ k := by omega
        rw [if_neg hk, ih, if_neg h1, if_neg hle]

/-- What is read after a byte sequence is written at `a`. -/
theorem Memory.read_writeBytes (b : Memory) (a : Nat) (bytes : List Byte) (k : Nat) :
    (b.writeBytes a bytes).read k =
      if a ≤ k ∧ k < a + bytes.length then bytes[k - a]? else b.read k := by
  unfold Memory.writeBytes
  rw [Memory.read_append, Memory.read_append, Memory.read_filter b (fun c => decide (c < a)),
    Memory.read_filter b (fun c => decide (a + bytes.length ≤ c)), read_cellsAt]
  by_cases h1 : k < a
  · have h2 : ¬ a ≤ k := by omega
    have h3 : ¬ a + bytes.length ≤ k := by omega
    simp [h1, h2, h3]
  · have h2 : a ≤ k := by omega
    by_cases h3 : k < a + bytes.length
    · have h4 : ¬ a + bytes.length ≤ k := by omega
      simp [h1, h2, h3, h4]
    · have h4 : a + bytes.length ≤ k := by omega
      have h5 : bytes[k - a]? = none := by rw [List.getElem?_eq_none_iff]; omega
      simp [h1, h2, h3, h4, h5]

theorem mem_cellsAt {bytes : List Byte} {a : Nat} {c : Host.Cell} (h : c ∈ cellsAt a bytes) :
    a ≤ c.1 ∧ c.1 < a + bytes.length := by
  induction bytes generalizing a with
  | nil => simp [cellsAt] at h
  | cons v vs ih =>
    rcases List.mem_cons.1 h with h | h
    · subst h; simp
    · have := ih h; simp only [List.length_cons]; omega

theorem pairwise_cellsAt (bytes : List Byte) (a : Nat) :
    (cellsAt a bytes).Pairwise fun c d => c.1 < d.1 := by
  induction bytes generalizing a with
  | nil => simp [cellsAt]
  | cons v vs ih =>
    refine List.pairwise_cons.2 ⟨fun c hc => ?_, ih (a + 1)⟩
    have := mem_cellsAt hc; show a < c.1; omega

/-- Writing a byte sequence inside `BUF` keeps the canonical form. -/
theorem Memory.wf_writeBytes {b : Memory} (hb : b.wf) {a : Nat} {bytes : List Byte}
    (h : a + bytes.length ≤ serLen) : (b.writeBytes a bytes).wf := by
  have hlow : ∀ c ∈ b.filter (fun c => c.1 < a), c.1 < a := fun c hc => by
    simpa using (List.mem_filter.1 hc).2
  have hhigh : ∀ c ∈ b.filter (fun c => a + bytes.length ≤ c.1), a + bytes.length ≤ c.1 :=
    fun c hc => by simpa using (List.mem_filter.1 hc).2
  refine ⟨?_, fun c hc => ?_⟩
  · unfold Memory.writeBytes
    rw [List.pairwise_append, List.pairwise_append]
    refine ⟨⟨hb.1.filter _, pairwise_cellsAt bytes a, fun c hc d hd => ?_⟩, hb.1.filter _,
      fun c hc d hd => ?_⟩
    · have := hlow c hc; have := mem_cellsAt hd; omega
    · have h2 := hhigh d hd
      rcases List.mem_append.1 hc with hc | hc
      · have := hlow c hc; omega
      · have := mem_cellsAt hc; omega
  · unfold Memory.writeBytes at hc
    rcases List.mem_append.1 hc with hc | hc
    · rcases List.mem_append.1 hc with hc | hc
      · exact hb.2 c (List.mem_filter.1 hc).1
      · have := mem_cellsAt hc; omega
    · exact hb.2 c (List.mem_filter.1 hc).1

/-! ### The machine's reads -/

theorem State.bufByte_write (s : State) (a k : Nat) (v : Byte) :
    ({ s with buf := s.buf.write a v } : State).bufByte k = if k = a then v else s.bufByte k := by
  simp only [State.bufByte, Memory.read_write]
  by_cases h : k = a <;> simp [h]

/-- Any state with the same `BUF` and the same reset count reads the same bytes. -/
theorem State.bufByte_congr {s t : State} (hb : t.buf = s.buf) (hr : t.resets = s.resets) :
    t.bufByte = s.bufByte := by
  funext k; simp [State.bufByte, hb, hr]

theorem State.bufByte_writeBytes (s : State) (a k : Nat) (bytes : List Byte) :
    (s.writeBufBytes a bytes).bufByte k =
      if h : a ≤ k ∧ k < a + bytes.length then bytes[k - a] else s.bufByte k := by
  simp only [State.bufByte, State.writeBufBytes, Memory.read_writeBytes]
  by_cases h : a ≤ k ∧ k < a + bytes.length
  · have hlt : k - a < bytes.length := by omega
    rw [if_pos h, dif_pos h, List.getElem?_eq_getElem hlt]
  · rw [if_neg h, dif_neg h]

/-- Only the cells below `a` are dropped before a span is read, so the span is read byte by byte. -/
theorem readSpan_eq (s : State) (n a : Nat) (dropped rest : Memory)
    (hs : s.buf = dropped ++ rest) (hd : ∀ c ∈ dropped, c.1 < a) :
    readSpan s.bufByte n a rest = (List.range n).map fun k => s.bufByte (a + k) := by
  induction n generalizing a dropped rest with
  | zero => simp [readSpan]
  | succ n ih =>
    rw [List.range_succ_eq_map, List.map_cons, List.map_map]
    have key : ∀ d r, s.buf = d ++ r → (∀ c ∈ d, c.1 < a + 1) →
        readSpan s.bufByte n (a + 1) r =
          List.map ((fun k => s.bufByte (a + k)) ∘ Nat.succ) (List.range n) := by
      intro d r h1 h2
      rw [ih (a + 1) d r h1 h2]
      exact List.map_congr_left fun k _ => by simp [Nat.add_comm, Nat.add_left_comm]
    have hd' : ∀ c ∈ dropped, c.1 < a + 1 := fun c hc => Nat.lt_succ_of_lt (hd c hc)
    cases rest with
    | nil => simp only [readSpan, Nat.add_zero]; rw [key dropped [] hs hd']
    | cons c t =>
      obtain ⟨k, v⟩ := c
      simp only [readSpan, Nat.add_zero]
      split
      case isTrue hk =>
        subst hk
        have hnone : dropped.read k = none := by
          clear hs hd'
          induction dropped with
          | nil => rfl
          | cons e u ihd =>
            have h1 : e.1 < k := hd e (by simp)
            have h2 : ¬ e.1 = k := by omega
            obtain ⟨e1, e2⟩ := e
            rw [Memory.read, if_neg h2]
            exact ihd fun c hc => hd c (by simp [hc])
        have hv : s.bufByte k = v := by
          simp [State.bufByte, hs, Memory.read_append, hnone, Memory.read]
        rw [hv, key (dropped ++ [(k, v)]) t (by simp [hs])]
        intro c hc
        rcases List.mem_append.1 hc with hc | hc
        · exact hd' c hc
        · rw [List.mem_singleton] at hc; subst hc; simp
      case isFalse hk => rw [key dropped ((k, v) :: t) hs hd']

/-- `MemRead(a, n)` is the `n` bytes `BUF[a]` to `BUF[a + n − 1]`. -/
theorem State.bufBytes_eq (s : State) (a n : Nat) :
    s.bufBytes a n = (List.range n).map fun k => s.bufByte (a + k) :=
  readSpan_eq s n a (s.buf.takeWhile fun c => c.1 < a) _ (List.takeWhile_append_dropWhile).symm
    fun c hc => by simpa using List.mem_takeWhile_imp hc

theorem State.bufVector_toList (s : State) (a n : Nat) :
    (s.bufVector a n).toList = (List.range n).map fun k => s.bufByte (a + k) :=
  s.bufBytes_eq a n

theorem State.bufVector_getElem (s : State) (a n k : Nat) (hk : k < n) :
    (s.bufVector a n)[k] = s.bufByte (a + k) := by
  have h := congrArg (fun l => l[k]?) (s.bufVector_toList a n)
  simpa [hk] using h

end Sys2Proof.Machine
end

