-- ==== Sys2Proof/Laws/PerInstr.lean ====
section
/-! SUPPORT. The family `FieldsOfWord` (LAWS.json): the fields read from a command's word are the
command's fields, so the encoding drops no bit of an operand. -/

namespace Sys2Proof.Laws.FieldsOfWord

/-- The word of `i` has the fields of `i`. -/
def Statement (i : Instr) : Prop := fieldsOf (encode i) = encodeFields i

theorem holds (i : Instr) : Statement i := fieldsOf_packFields (encodeFields_fits i)

theorem fredu (d : FReg) (a : XReg) : Statement (.fredu d a) := holds _
theorem freds (d : FReg) (a : XReg) : Statement (.freds d a) := holds _
theorem fadd (d a b : FReg) : Statement (.fadd d a b) := holds _
theorem fsub (d a b : FReg) : Statement (.fsub d a b) := holds _
theorem fmul (d a b : FReg) : Statement (.fmul d a b) := holds _
theorem fint (d : XReg) (a : FReg) : Statement (.fint d a) := holds _
theorem pzero (d : PReg) : Statement (.pzero d) := holds _
theorem pset (d : PReg) (a : FReg) (k : Idx) : Statement (.pset d a k) := holds _
theorem pget (d : FReg) (a : PReg) (k : Idx) : Statement (.pget d a k) := holds _
theorem ntt (d a : PReg) : Statement (.ntt d a) := holds _
theorem intt (d a : PReg) : Statement (.intt d a) := holds _
theorem hadam (d a b : PReg) : Statement (.hadam d a b) := holds _
theorem psub (d a b : PReg) : Statement (.psub d a b) := holds _
theorem normsq (d : XReg) (a : PReg) : Statement (.normsq d a) := holds _
theorem peq (d : XReg) (a b : PReg) : Statement (.peq d a b) := holds _
theorem pkdec (d : PReg) : Statement (.pkdec d) := holds _
theorem sgdec (d : PReg) : Statement (.sgdec d) := holds _
theorem mset (a : XReg) (k : Idx) : Statement (.mset a k) := holds _
theorem nset (a : XReg) (k : Idx) : Statement (.nset a k) := holds _
theorem h2p (d : PReg) : Statement (.h2p d) := holds _
theorem load : Statement (.load) := holds _
theorem store : Statement (.store) := holds _
theorem getn : Statement (.getn) := holds _
theorem geth (d : PReg) : Statement (.geth d) := holds _
theorem gets (d : PReg) : Statement (.gets d) := holds _
theorem cset (a : XReg) (k : Idx) : Statement (.cset a k) := holds _
theorem verify (d : XReg) : Statement (.verify d) := holds _

end Sys2Proof.Laws.FieldsOfWord
end

