-- ==== Sys2Proof/Tests/Slice0.lean ====
section
/-! SUPPORT. Tests: ill-formed terms that the check refuses, words written out from the encodings of
`30_encoding.md`, single commands on small states with the results the spec gives (`95_test_vectors.md`
and the rules' own examples; each test names its source), and for every statement with hypotheses a
witness that meets them. -/

namespace Sys2Proof.Tests
open Sys2Proof Sys2Proof.Machine

-- one test after the other, so that few threads run at a time
set_option Elab.async false

/-! ### Helpers -/

/-- The state a step ends in. -/
def after (o : Host.Outcome State Fault Refusal) : State :=
  match o with
  | .next t => t
  | _ => State.reset

/-- The polynomial with the entries listed first and zeros after them. -/
def short (l : List Nat) : Poly := Poly.ofList (l.map Fq.ofNat)

/-- Entry `k` of a polynomial register, if it holds one. -/
def entry (s : State) (d : PReg) (k : Fin 512) : Option Nat :=
  match s.p[d] with
  | .empty => none
  | .held _ e => some e[k].val

/-- A state with one `x` register written. -/
def withX (v : Word64) : State := State.reset.setX 0 v

/-- A state with two field registers written, `f0` and `f1`. -/
def withF (u v : Fq) : State := (State.reset.setF 0 u).setF 1 v

/-- A state with two polynomial registers written, `p0` and `p1`. -/
def withP (form : Form) (u v : Poly) : State := (State.reset.setP 0 form u).setP 1 form v

/-- The test permutation `Permute_ROT1` of `95_test_vectors.md`: new[i] = old[(i + 1) mod W] + 1. -/
def rot1 (st : Vector (Fin Config.pWide) 12) : Vector (Fin Config.pWide) 12 :=
  tabulate 12 fun i =>
    ⟨((st[(i.val + 1) % 12]'(Nat.mod_lt _ (by decide))).val + 1) % Config.pWide,
      Nat.mod_lt _ (by decide)⟩

/-- The test commitment `Commit_SUM` of `95_test_vectors.md`. -/
def commitSum (h : Poly) : Vector Word64 4 :=
  ⟨#[BitVec.ofNat 64 ((h.toList.zipIdx.map fun v => (v.2 + 1) * v.1.val).sum),
    BitVec.ofNat 64 ((h.toList.map (·.val)).sum), 0, 0], rfl⟩

/-- The configuration of the test vectors: defaults, `Permute_ROT1`, `Commit_SUM`. -/
def mock : Cfg := { Config.cfg with permute := rot1, commitHash := commitSum }

/-- The zero public-key blob (V42-1) and the zero signature blob (V42-10). -/
def zeroPk : List Byte := 0x09 :: List.replicate 896 0
def zeroSig : List Byte := 0x39 :: List.replicate 665 0

theorem zeroPk_length : zeroPk.length = 897 := by
  rw [zeroPk, List.length_cons, List.length_replicate]

theorem zeroSig_length : zeroSig.length = 666 := by
  rw [zeroSig, List.length_cons, List.length_replicate]

theorem bitString_zeros (n : Nat) :
    bitString (List.replicate n 0) = List.replicate (8 * n) false := by
  induction n with
  | zero => rfl
  | succ n ih =>
    have h : 8 * (n + 1) = 8 + 8 * n := by omega
    rw [List.replicate_succ, h, List.replicate_add, ← ih]
    rfl

theorem unpackCoeffs_zeros (n r : Nat) :
    unpackCoeffs n (List.replicate (14 * n + r) false) = .ok (List.replicate n 0) := by
  induction n with
  | zero => rfl
  | succ n ih =>
    have h : 14 * (n + 1) + r = 14 + (14 * n + r) := by omega
    have h0 : bitsValue (List.replicate 14 false) = 0 := rfl
    rw [h, List.replicate_add, unpackCoeffs, List.take_left' (by simp), List.drop_left' (by simp), h0,
      ih]
    rfl

theorem readCodes_zeros (n r : Nat) :
    readCodes Config.cfg n (List.replicate (9 * n + r) false) =
      .ok (List.replicate n 0, List.replicate r false) := by
  induction n with
  | zero => simp [readCodes]
  | succ n ih =>
    have h : 9 * (n + 1) + r = 9 + (9 * n + r) := by omega
    have h1 : ∀ bs, readCode Config.cfg (List.replicate 9 false ++ bs) = .ok (0, bs) := fun _ => rfl
    rw [h, List.replicate_add, readCodes, h1]
    simp only [except_ok_bind, ih]
    rfl

theorem ofList_zeros : Poly.ofList (List.replicate ringDegree 0) = Poly.zero :=
  Vector.toList_inj.1 <| by
    rw [Poly.ofList_toList List.length_replicate, Poly.zero, Vector.toList_replicate]

theorem zeroPk_decodes : pkDecode zeroPk = .ok Poly.zero := by
  have h : bitString (zeroPk.drop 1) = List.replicate (14 * ringDegree + 0) false :=
    bitString_zeros 896
  rw [pkDecode, if_neg (by simp [zeroPk_length]), if_neg (by decide), h, unpackCoeffs_zeros]
  simp only [except_ok_bind, ofList_zeros]

theorem zeroSig_decodes : sigDecode Config.cfg zeroSig = .ok Poly.zero := by
  have h : bitString (zeroSig.drop 41) = List.replicate (9 * ringDegree + 392) false :=
    bitString_zeros 625
  rw [sigDecode, if_neg (by simp [zeroSig_length]), if_neg (by decide), h, readCodes_zeros]
  simp only [except_ok_bind, List.any_replicate, ofList_zeros, id, Bool.false_eq_true, ite_self,
    if_false]

/-- Reset, then the host has written `bytes` from address 0 and their number to `BLEN`. -/
def withBuf (bytes : List Byte) : State :=
  { State.reset.writeBufBytes 0 bytes with blen := BitVec.ofNat 11 bytes.length }

theorem withBuf_bytes (bytes : List Byte) (a n : Nat) (h : a + n ≤ bytes.length) :
    (List.range n).map (fun k => (withBuf bytes).bufByte (a + k)) = (bytes.drop a).take n := by
  apply List.ext_getElem
  · simp; omega
  · intro k hk _
    have hk' : k < n := by simpa using hk
    have hb : (withBuf bytes).bufByte (a + k) =
        (State.reset.writeBufBytes 0 bytes).bufByte (a + k) := rfl
    simp only [List.getElem_map, List.getElem_range, hb, State.bufByte_writeBytes]
    rw [dif_pos (by omega)]
    simp

/-! ### WellFormed refuses an `idx` above its range (rule R103) -/

theorem test_mset_idx_4_is_ill_formed : ¬ (Instr.mset 5 4).WellFormed := by decide
theorem test_nset_idx_8_is_ill_formed : ¬ (Instr.nset 1 8).WellFormed := by decide
theorem test_cset_idx_4_is_ill_formed : ¬ (Instr.cset 3 4).WellFormed := by decide
theorem test_largest_idx_is_well_formed :
    (Instr.mset 5 3).WellFormed ∧ (Instr.nset 1 7).WellFormed ∧ (Instr.cset 3 3).WellFormed ∧
      (Instr.pset 2 5 511).WellFormed ∧ (Instr.pget 0 7 511).WellFormed := by decide

/-! ### Words written out from rules R101 and R105: `op` 8 bits, `rd` 4, `ra` 4, `rb` 4, `z` 3, `idx` 9 -/

theorem test_decode_fredu : decode 0b00000001_0001_0010_0000_000_000000000 = .ok (.fredu 1 2) := rfl
theorem test_decode_freds : decode 0b00000010_1111_0011_0000_000_000000000 = .ok (.freds 15 3) := rfl
theorem test_decode_fadd : decode 0b00000011_0011_0001_0010_000_000000000 = .ok (.fadd 3 1 2) := rfl
theorem test_decode_fsub : decode 0b00000100_0011_0001_0010_000_000000000 = .ok (.fsub 3 1 2) := rfl
theorem test_decode_fmul : decode 0b00000101_0011_0001_0010_000_000000000 = .ok (.fmul 3 1 2) := rfl
theorem test_decode_fint : decode 0b00000110_0100_1111_0000_000_000000000 = .ok (.fint 4 15) := rfl
theorem test_decode_pzero : decode 0b00010000_0111_0000_0000_000_000000000 = .ok (.pzero 7) := rfl
theorem test_decode_pset : decode 0b00010001_0010_0101_0000_000_111111111 = .ok (.pset 2 5 511) := rfl
theorem test_decode_pget : decode 0b00010010_0000_0111_0000_000_000000000 = .ok (.pget 0 7 0) := rfl
theorem test_decode_ntt : decode 0b00010011_0011_0100_0000_000_000000000 = .ok (.ntt 3 4) := rfl
theorem test_decode_intt : decode 0b00010100_0111_0110_0000_000_000000000 = .ok (.intt 7 6) := rfl
theorem test_decode_hadam : decode 0b00010101_0011_0001_0010_000_000000000 = .ok (.hadam 3 1 2) := rfl
theorem test_decode_psub : decode 0b00010110_0110_0011_0110_000_000000000 = .ok (.psub 6 3 6) := rfl
theorem test_decode_normsq : decode 0b00010111_1001_0101_0000_000_000000000 = .ok (.normsq 9 5) := rfl
theorem test_decode_peq : decode 0b00011000_1000_0001_0110_000_000000000 = .ok (.peq 8 1 6) := rfl
theorem test_decode_pkdec : decode 0b00100000_0101_0000_0000_000_000000000 = .ok (.pkdec 5) := rfl
theorem test_decode_sgdec : decode 0b00100001_0110_0000_0000_000_000000000 = .ok (.sgdec 6) := rfl
theorem test_decode_mset : decode 0b00110000_0000_0101_0000_000_000000010 = .ok (.mset 5 2) := rfl
theorem test_decode_nset : decode 0b00110001_0000_0001_0000_000_000000111 = .ok (.nset 1 7) := rfl
theorem test_decode_h2p : decode 0b00110010_0001_0000_0000_000_000000000 = .ok (.h2p 1) := rfl
theorem test_decode_load : decode 0b01000000_0000_0000_0000_000_000000000 = .ok .load := rfl
theorem test_decode_store : decode 0b01000001_0000_0000_0000_000_000000000 = .ok .store := rfl
theorem test_decode_getn : decode 0b01000010_0000_0000_0000_000_000000000 = .ok .getn := rfl
theorem test_decode_geth : decode 0b01000011_0010_0000_0000_000_000000000 = .ok (.geth 2) := rfl
theorem test_decode_gets : decode 0b01000100_0001_0000_0000_000_000000000 = .ok (.gets 1) := rfl
theorem test_decode_cset : decode 0b01000101_0000_0111_0000_000_000000011 = .ok (.cset 7 3) := rfl
theorem test_decode_verify : decode 0b01000110_1000_0000_0000_000_000000000 = .ok (.verify 8) := rfl

/-- V30-6 to V30-11: words that are no command, with the reason the spec gives. -/
theorem test_decode_illegal :
    ([0x00000000, 0xFFFFFFFF, 0x07000000, 0x19000000, 0x47000000].map decode =
      List.replicate 5 (.error .unknownOpcode)) ∧
    decode 0x10800000 = .error .polyIndexAboveSeven ∧
    decode 0x01000200 = .error .nonzeroUnusedField ∧
    decode 0x30000004 = .error .idxAboveRange ∧
    decode 0x40100000 = .error .nonzeroUnusedField ∧
    decode 0x01001000 = .error .nonzeroUnusedField := by decide

/-- The word the host places runs in the very next step, as the first after reset (rule R269 for a
word that is no command). -/
theorem test_placed_word_runs :
    step (State.reset.withFetchWord 32 0x10700000) =
      .next { State.reset with p := State.reset.p.set 7 (.held .coef Poly.zero) } ∧
    step (State.reset.withFetchWord 32 0x10800000) =
      .next { State.reset with fault := some .illegal, fcmd := 0x10800000 } := ⟨rfl, rfl⟩

theorem test_table_word_decodes : decodeTableWord 32 0x03312000 = some (.fadd 3 1 2) := rfl

/-! ### Field arithmetic (V40) -/

/-- V40-10: −1 as an unsigned 64-bit integer is 5663 mod q. -/
theorem test_fredu : (after (exec (.fredu 3 0) (withX 0xFFFFFFFFFFFFFFFF))).f[(3 : Fin 16)] =
    some 5663 := by decide +kernel
/-- V40-6: −2^63 is 9457 mod q. -/
theorem test_freds : (after (exec (.freds 3 0) (withX 0x8000000000000000))).f[(3 : Fin 16)] =
    some 9457 := by decide +kernel
/-- V40-11. -/
theorem test_fadd : (after (exec (.fadd 0 0 1) (withF 12288 12288))).f[(0 : Fin 16)] =
    some 12287 := by decide +kernel
/-- V40-13: 0 − 1 is 12288. -/
theorem test_fsub : (after (exec (.fsub 2 0 1) (withF 0 1))).f[(2 : Fin 16)] =
    some 12288 := by decide +kernel
/-- V40-17. -/
theorem test_fmul : (after (exec (.fmul 1 0 1) (withF 6144 6144))).f[(1 : Fin 16)] =
    some 9217 := by decide +kernel
/-- V40-20. -/
theorem test_fint : (after (exec (.fint 5 0) (withF 12288 0))).x[(5 : Fin 16)] =
    some 0x3000 := by decide +kernel
/-- Rule R262: a register with no value faults, `FCMD` takes the word, and the destination stays. -/
theorem test_fadd_uninit :
    exec (.fadd 3 1 2) State.reset =
      .next { State.reset with fault := some .uninit, fcmd := 0x03312000 } := rfl

/-! ### The ring (V41) -/

theorem test_pzero : entry (after (exec (.pzero 2) State.reset)) 2 511 = some 0 := by decide +kernel
/-- Rule R157: entry 511 is written, entry 510 stays. -/
theorem test_pset :
    let t := after (exec (.pset 0 1 511) ((withF 0 7).setP 0 .coef (Vector.replicate 512 3)))
    entry t 0 511 = some 7 ∧ entry t 0 510 = some 3 := by decide +kernel
/-- Rule R158: either form. -/
theorem test_pget :
    (after (exec (.pget 4 1 2) (withP .eval Poly.zero (short [5, 6, 7])))).f[(4 : Fin 16)] =
      some 7 := by decide +kernel
/-- V41-2: ntt(x) begins 49, 7048 and ends 1254. -/
theorem test_ntt :
    (nttOf Config.cfg (short [0, 1]))[0].val = 49 ∧ (nttOf Config.cfg (short [0, 1]))[1].val = 7048 ∧
      (nttOf Config.cfg (short [0, 1]))[511].val = 1254 := by decide +kernel
/-- Rule R159 on an `EVAL` operand: `F_FORM`. -/
theorem test_ntt_form : (after (exec (.ntt 0 1) (withP .eval Poly.zero Poly.zero))).fault =
    some .form := by decide +kernel
/-- V41-6: intt of 512 ones is 1. -/
theorem test_intt :
    (inttOf Config.cfg (Vector.replicate 512 1))[0].val = 1 ∧
      (inttOf Config.cfg (Vector.replicate 512 1))[511].val = 0 := by decide +kernel
/-- V41-9. -/
theorem test_hadam :
    entry (after (exec (.hadam 2 0 1) (withP .eval (short [50, 7049]) (short [11035, 7032])))) 2 1 =
      some 7031 := by decide +kernel
/-- V41-15. -/
theorem test_psub :
    entry (after (exec (.psub 1 0 1) (withP .coef (short [1]) (short [0, 1])))) 1 1 =
      some 12288 := by decide +kernel
/-- V41-12. -/
theorem test_normsq :
    (after (exec (.normsq 6 0) (withP .coef (short [1, 12288, 2, 12287]) Poly.zero))).x[(6 : Fin 16)] =
      some 10 := by decide +kernel
/-- V41-10: the largest norm. -/
theorem test_normsq_largest :
    (after (exec (.normsq 6 0) (withP .coef (Vector.replicate 512 6144) Poly.zero))).x[(6 : Fin 16)] =
      some 19327352832 := by decide +kernel
/-- Rule R164: one entry that differs, at the end. -/
theorem test_peq :
    (after (exec (.peq 1 0 0) (withP .eval (short [1]) (short [2])))).x[(1 : Fin 16)] = some 1 ∧
    (after (exec (.peq 1 0 1)
      (withP .eval Poly.zero (Poly.zero.set 511 1)))).x[(1 : Fin 16)] = some 0 := by decide +kernel

/-! ### The codec (V42) -/

/-- V42-5: coefficient 0 is 12289. -/
theorem test_pkdec_range : pkDecode (0x09 :: 0xC0 :: 0x04 :: List.replicate 894 0) =
    .error .pkRange := by decide +kernel
/-- V42-8: another `BLEN` than 897. -/
theorem test_pkdec_length :
    exec (.pkdec 3) State.reset = .next { State.reset with err := some .length } := rfl
/-- V42-12, `CONT` = 1: a zero with the sign bit set. -/
theorem test_sgdec_negative_zero :
    sigDecode Config.cfg (0x39 :: (List.replicate 40 0 ++ 0x80 :: List.replicate 624 0)) =
      .error .sigNegZero := by decide +kernel
/-- Rule R189: the code of −130 with `CONT` = 1 is sign 1, low bits 0000010, one 1-bit, terminator 0. -/
theorem test_sgdec_code :
    (readCode Config.cfg [true, false, false, false, false, false, true, false, true, false, true] =
      .ok (12159, [true])) := by decide +kernel

/-! ### Hash-to-point (V43) -/

/-- V43-7: all ones is no element of the wide field. -/
theorem test_mset_range :
    exec (.mset 0 0) (withX 0xFFFFFFFFFFFFFFFF) =
      .next { withX 0xFFFFFFFFFFFFFFFF with fault := some .range, fcmd := 0x30000000 } := by
  rfl
/-- V43-5: `P_WIDE` − 1 is one. -/
theorem test_mset_largest :
    (after (exec (.mset 0 3) (withX 0xFFFFFFFF00000000))).m[(3 : Fin 4)] =
      some 0xFFFFFFFF00000000 := by decide +kernel
theorem test_nset :
    (after (exec (.nset 0 7) (withX 0xFFFFFFFF00000000))).n[(7 : Fin 8)] =
      some 0xFFFFFFFF00000000 := by decide +kernel
/-- V43-3: `Permute_ROT1`, overwrite. -/
theorem test_h2p :
    ((hashToPoint mock #v[10, 20, 30, 40] #v[1, 2, 3, 4, 5, 6, 7, 8]).toList.take 16).map Fin.val =
      [21, 31, 41, 8, 9, 10, 2, 2, 32, 42, 9, 10, 11, 3, 3, 3] := by decide +kernel
/-- V43-2: `Permute_ROT1`, add. -/
theorem test_h2p_add :
    ((hashToPoint { mock with absorb := .add } #v[0, 0, 0, 0]
      #v[1, 2, 3, 4, 5, 6, 7, 8]).toList.take 16).map Fin.val =
      [5, 6, 7, 8, 9, 10, 2, 2, 7, 8, 9, 10, 11, 3, 3, 3] := by decide +kernel

/-! ### The signature context and the verifier -/

/-- A loaded signature with the zero blobs. -/
def zeroSignature : Signature where
  pkb := ⟨zeroPk.toArray, zeroPk_length⟩
  sgb := ⟨zeroSig.toArray, zeroSig_length⟩
  h := Poly.zero
  s2 := Poly.zero

/-- The example of rule R235: the bytes 01 02 03 04 05 of the nonce are 0x0504030201. -/
def countingSignature : Signature :=
  { zeroSignature with
    sgb := ⟨(0x39 :: 1 :: 2 :: 3 :: 4 :: 5 :: List.replicate 660 0).toArray, by
      simp only [List.size_toArray, List.length_cons, List.length_replicate]⟩ }

/-- Every register has a value, a signature is loaded. -/
def full : State :=
  { State.reset with
    x := Vector.replicate 16 (some 0xFFFFFFFFFFFFFFFF)
    f := Vector.replicate 16 (some 12288)
    p := Vector.replicate 8 (.held .coef (Vector.replicate 512 12288))
    m := Vector.replicate 4 (some 0xFFFFFFFF00000000)
    n := Vector.replicate 8 (some 0xFFFFFFFF00000000)
    c := Vector.replicate 4 (some 0xFFFFFFFFFFFFFFFF)
    sig := some zeroSignature }

/-- Rules R231, R232: another `BLEN` than 1563 empties the context, with no fault. -/
theorem test_load_length : exec .load full = .next { full with sig := none, err := some .length } := rfl
/-- Rule R233: the raw bytes, the signature blob after the public key, and `BLEN`. -/
theorem test_store :
    (after (exec .store full)).buf.read 0 = some 0x09 ∧
    (after (exec .store full)).buf.read 897 = some 0x39 ∧
    (after (exec .store full)).buf.read 1563 = none ∧
    (after (exec .store full)).blen = 1563 := by decide +kernel
theorem test_getn :
    (after (exec .getn { State.reset with sig := some countingSignature })).n =
      #v[some 0x0504030201, some 0, some 0, some 0, some 0, some 0, some 0, some 0] := by
  decide +kernel
/-- Rule R267. -/
theorem test_geth_nosig :
    exec (.geth 2) State.reset =
      .next { State.reset with fault := some .nosig, fcmd := 0x43200000 } := rfl
theorem test_gets : entry (after (exec (.gets 2) full)) 2 0 = some 0 := by decide +kernel
/-- Rule R239: no check against `P_WIDE`. -/
theorem test_cset : (after (exec (.cset 0 3) (withX 0xFFFFFFFFFFFFFFFF))).c[(3 : Fin 4)] =
    some 0xFFFFFFFFFFFFFFFF := by decide +kernel
/-- V44-6: no LOAD, verdict 0 and no fault. -/
theorem test_verify_nosig :
    (after (exec (.verify 4) { full with sig := none })).x[(4 : Fin 16)] = some 0 ∧
    (after (exec (.verify 4) { full with sig := none })).fault = none := by decide +kernel
/-- V44-3: another commitment than `Commit_SUM` of the key, which is 0 for the zero key, is rejected. -/
theorem test_verify_commitment :
    verifyFn mock Poly.zero Poly.zero zeroSignature.sgb #v[0, 0, 0, 0] #v[0, 0, 0, 1] = false := by
  decide +kernel

/-! ### The host's actions -/

/-- Rule R47: (`F_UNINIT`, a signature loaded) reads as 0x23. -/
theorem test_status : { full with fault := some FaultCode.uninit }.statusWord = 0x23 := by decide
/-- Rule R265: (`E_SIG`, NEGZERO) reads as 0x43. -/
theorem test_err : { full with err := some DecodeError.sigNegZero }.errWord = 0x43 := by decide

/-! ### Witnesses: states and operands that meet the hypotheses of the statements -/

/-- Registers with and without a value; polynomial registers of each form, and empty ones. -/
def mixed : State :=
  { State.reset with
    x := tabulate 16 fun i => if i.val = 15 then none else some 0xFFFFFFFFFFFFFFFF
    f := tabulate 16 fun i => if i.val = 15 then none else some 12288
    p := tabulate 8 fun i =>
      if i.val < 2 then .held .coef (Vector.replicate 512 12288)
      else if i.val < 4 then .held .eval (Vector.replicate 512 12288) else .empty }

/-- `full` with the host's next action added. -/
def acting (input : Input) : State := { full with pending := [input] }

/-- D9, U9: a read of the write-only `CMD` is not a register's value: the counter of the free values
moves on, and no other state does. -/
theorem test_read_of_cmd :
    (after (step (acting (.readCsr 0x05)))).draws = 1 ∧
    { after (step (acting (.readCsr 0x05))) with reply := none, draws := 0 } = full := ⟨rfl, rfl⟩
/-- D8: likewise the first address above `BUF`. -/
theorem test_read_above_buf :
    (after (step (acting (.readBuf 1563)))).draws = 1 ∧
    { after (step (acting (.readBuf 1563))) with reply := none, draws := 0 } = full := ⟨rfl, rfl⟩

theorem full_inv : full.Inv where
  buf := Memory.wf_nil
  message := by
    intro i v h
    have h' : some (0xFFFFFFFF00000000 : Word64) = some v := by simpa [full] using h
    cases h'; decide
  nonce := by
    intro i v h
    have h' : some (0xFFFFFFFF00000000 : Word64) = some v := by simpa [full] using h
    cases h'; decide
  context := by
    intro sg h
    have h' : some zeroSignature = some sg := h
    cases h'
    exact ⟨zeroPk_decodes, zeroSig_decodes⟩
  fcmd := fun _ => rfl

theorem witness_BothResetsGiveTheResetState :
    (1 : Word64).getLsbD 0 = true ∧ (0xFFFFFFFFFFFFFFFE : Word64).getLsbD 0 = false := by decide

theorem witness_StepKeepsInvariant :
    (acting (.writeCsr 0x05 0x41000000)).Inv ∧
      ∃ t, step (acting (.writeCsr 0x05 0x41000000)) = .next t :=
  ⟨⟨full_inv.buf, full_inv.message, full_inv.nonce, full_inv.context, full_inv.fcmd⟩, ⟨_, rfl⟩⟩

theorem witness_StepRunsDecodedCommand :
    full.faultFree ∧ decode ((0xFFFFFFFF46F00000 : Word64).setWidth 32) = .ok (.verify 15) :=
  ⟨rfl, rfl⟩

theorem witness_IllegalWordRaisesIllegal :
    full.faultFree ∧ ∀ row ∈ opcodeRows, ¬ fitsRow ((0x30000004 : Word64).setWidth 32) row :=
  ⟨rfl, by simp [opcodeRows]⟩

theorem witness_FaultedEngineIgnoresCommands :
    { full with fault := some FaultCode.range }.fault = some FaultCode.range := rfl

/-- A reset is not next, and every register, the signature and a fault are there to be kept. -/
theorem witness_OnlyResetClearsFaultsAndValues :
    (∃ t, step { acting (.writeCsr 0x05 0x47000000) with fault := some .form } = .next t) ∧
    ¬ State.resetIsNext { acting (.writeCsr 0x05 0x47000000) with fault := some .form } ∧
    full.x[(15 : Fin 16)].isSome ∧ full.f[(15 : Fin 16)].isSome ∧ full.p[(7 : Fin 8)] ≠ .empty ∧
    full.m[(3 : Fin 4)].isSome ∧ full.n[(7 : Fin 8)].isSome ∧ full.c[(3 : Fin 4)].isSome := by
  refine ⟨⟨_, rfl⟩, ?_, rfl, rfl, ?_, rfl, rfl, rfl⟩
  · rintro ⟨rest, h | ⟨v, h, -⟩⟩ <;> simp [acting] at h
  · simp [full]

/-- The failed LOAD of its last clause. -/
theorem witness_OnlyResetClearsFaultsAndValues_sig :
    ¬ (acting (.writeCsr 0x05 0x40000000)).resetIsNext ∧
    ∃ t, step (acting (.writeCsr 0x05 0x40000000)) = .next t ∧ full.sig.isSome ∧ t.sig = none := by
  refine ⟨?_, _, rfl, rfl, rfl⟩
  rintro ⟨rest, h | ⟨v, h, -⟩⟩ <;> simp [acting] at h

theorem witness_IdleEngineKeepsAllState : full.pending = [] := rfl

theorem witness_FaultsArePrecise :
    mixed.faultFree ∧ ∃ t, exec (.fint 0 15) mixed = .next t ∧ ¬ t.faultFree :=
  ⟨rfl, _, rfl, by decide⟩

theorem witness_OnlyDecodeCommandsWriteErr :
    (∃ t, exec .load full = .next t ∧ t.err ≠ full.err) ∧
    (∃ t, exec (.pkdec 7) full = .next t ∧ t.err ≠ full.err) ∧
    ∃ t, exec (.sgdec 7) full = .next t ∧ t.err ≠ full.err :=
  ⟨⟨_, rfl, by decide⟩, ⟨_, rfl, by decide⟩, ⟨_, rfl, by decide⟩⟩

theorem witness_OnlyLoadAndResetChangeSig :
    (∃ t, step (acting .hardReset) = .next t ∧ t.sig ≠ full.sig) ∧
    (∃ t, step (acting (.writeCsr 0x04 1)) = .next t ∧ t.sig ≠ full.sig) ∧
    ∃ t, step (acting (.writeCsr 0x05 0x40000000)) = .next t ∧ t.sig ≠ full.sig := by
  refine ⟨⟨_, rfl, ?_⟩, ⟨_, rfl, ?_⟩, ⟨_, rfl, ?_⟩⟩ <;> exact nofun

theorem witness_OnlyStoreWritesBuf :
    ∃ t, exec (.gets 0) full = .next t ∧ Instr.gets 0 ≠ .store := ⟨_, rfl, by decide⟩

theorem witness_HostReadsControlRegisters :
    mixed.x[(0 : Fin 16)] = some 0xFFFFFFFFFFFFFFFF ∧ full.x[(15 : Fin 16)].isSome := ⟨rfl, rfl⟩

theorem witness_ReadOfNoValueReturnsSomeWord :
    mixed.x[(15 : Fin 16)] = none ∧ State.reset.x[(0 : Fin 16)] = none ∧
    ∀ num ∈ [0x04, 0x05, 0x0F, 0x20], (0x03 < num ∧ num < 0x10) ∨ 0x1F < num :=
  ⟨rfl, rfl, by decide⟩

theorem witness_HostWritesControlRegisters :
    ∀ num ∈ [0x00, 0x02, 0x06, 0x0F, 0x20], num < 0x03 ∨ (0x05 < num ∧ num < 0x10) ∨ 0x1F < num := by
  decide

theorem witness_HostAccessesBufByteByByte : 1562 ≤ 1562 ∧ 1562 < 1563 := by decide

theorem witness_DecodeOfEncodeIsTheCommand :
    (Instr.mset 15 3).WellFormed ∧ (Instr.nset 15 7).WellFormed ∧ (Instr.hadam 7 7 7).WellFormed := by
  decide

theorem witness_EncodeOfDecodeIsTheWord : decode 0x117F01FF = .ok (.pset 7 15 511) := rfl

theorem witness_ConstructAndReduce :
    mixed.x[(0 : Fin 16)] = some 0xFFFFFFFFFFFFFFFF ∧ mixed.x[(15 : Fin 16)] = none := ⟨rfl, rfl⟩

theorem witness_FieldAddSubMul :
    mixed.f[(0 : Fin 16)] = some 12288 ∧ mixed.f[(14 : Fin 16)] = some 12288 ∧
      mixed.f[(15 : Fin 16)] = none := ⟨rfl, rfl, rfl⟩

theorem witness_FieldToInteger :
    mixed.f[(0 : Fin 16)] = some 12288 ∧ mixed.f[(15 : Fin 16)] = none := ⟨rfl, rfl⟩

/-- The four kinds of polynomial operand of the ring statements: `COEF`, `EVAL`, `EMPTY`, and two of
one form. -/
theorem mixed_polys :
    mixed.p[(0 : Fin 8)] = .held .coef (Vector.replicate 512 12288) ∧
    mixed.p[(1 : Fin 8)] = .held .coef (Vector.replicate 512 12288) ∧
    mixed.p[(2 : Fin 8)] = .held .eval (Vector.replicate 512 12288) ∧
    mixed.p[(3 : Fin 8)] = .held .eval (Vector.replicate 512 12288) ∧
    mixed.p[(7 : Fin 8)] = .empty := ⟨rfl, rfl, rfl, rfl, rfl⟩

theorem witness_SetOneCoefficient :
    (mixed.p[(0 : Fin 8)] = .held .coef (Vector.replicate 512 12288) ∧
      mixed.f[(0 : Fin 16)] = some 12288) ∧
    mixed.p[(7 : Fin 8)] = .empty ∧
    mixed.p[(2 : Fin 8)] = .held .eval (Vector.replicate 512 12288) ∧
    mixed.f[(15 : Fin 16)] = none := ⟨⟨rfl, rfl⟩, rfl, rfl, rfl⟩

theorem witness_GetOneEntry :
    mixed.p[(2 : Fin 8)] = .held .eval (Vector.replicate 512 12288) ∧ mixed.p[(7 : Fin 8)] = .empty :=
  ⟨rfl, rfl⟩

theorem witness_ForwardTransform :
    mixed.p[(0 : Fin 8)] = .held .coef (Vector.replicate 512 12288) ∧ mixed.p[(7 : Fin 8)] = .empty ∧
      mixed.p[(2 : Fin 8)] = .held .eval (Vector.replicate 512 12288) := ⟨rfl, rfl, rfl⟩

/-- V41-17: the inverse of 49 is 1254. -/
theorem witness_InverseTransform :
    Config.cfg.psi.val * 1254 % 12289 = 1 ∧
    mixed.p[(2 : Fin 8)] = .held .eval (Vector.replicate 512 12288) ∧ mixed.p[(7 : Fin 8)] = .empty ∧
      mixed.p[(0 : Fin 8)] = .held .coef (Vector.replicate 512 12288) := ⟨rfl, rfl, rfl, rfl⟩

theorem witness_PointwiseProduct :
    (mixed.p[(2 : Fin 8)] = .held .eval (Vector.replicate 512 12288) ∧
      mixed.p[(3 : Fin 8)] = .held .eval (Vector.replicate 512 12288)) ∧
    mixed.p[(7 : Fin 8)] = .empty ∧
      mixed.p[(0 : Fin 8)] = .held .coef (Vector.replicate 512 12288) := ⟨⟨rfl, rfl⟩, rfl, rfl⟩

theorem witness_PointwiseDifference :
    (mixed.p[(2 : Fin 8)] = .held .eval (Vector.replicate 512 12288) ∧
      mixed.p[(3 : Fin 8)] = .held .eval (Vector.replicate 512 12288)) ∧
    (mixed.p[(7 : Fin 8)] = .empty ∨ mixed.p[(0 : Fin 8)] = .empty) ∧
    (Form.coef ≠ .eval ∧ mixed.p[(0 : Fin 8)] = .held .coef (Vector.replicate 512 12288)) :=
  ⟨⟨rfl, rfl⟩, .inl rfl, by decide, rfl⟩

theorem witness_SquaredCenteredNorm :
    mixed.p[(0 : Fin 8)] = .held .coef (Vector.replicate 512 12288) ∧ mixed.p[(7 : Fin 8)] = .empty ∧
      mixed.p[(2 : Fin 8)] = .held .eval (Vector.replicate 512 12288) := ⟨rfl, rfl, rfl⟩

theorem witness_PolynomialEquality :
    (mixed.p[(0 : Fin 8)] = .held .coef (Vector.replicate 512 12288) ∧
      mixed.p[(1 : Fin 8)] = .held .coef (Vector.replicate 512 12288)) ∧
    (∃ k : Fin 512, (Vector.replicate 512 12288 : Poly)[k] ≠ Poly.zero[k]) ∧
    (mixed.p[(7 : Fin 8)] = .empty ∨ mixed.p[(0 : Fin 8)] = .empty) ∧
    (Form.coef ≠ .eval ∧ mixed.p[(2 : Fin 8)] = .held .eval (Vector.replicate 512 12288)) :=
  ⟨⟨rfl, rfl⟩, ⟨511, by decide +kernel⟩, .inl rfl, by decide, rfl⟩

theorem witness_PublicKeyDecoder :
    ([] : List Byte).length ≠ 897 ∧
    ((List.replicate 897 0 : List Byte).length = 897 ∧
      (List.replicate 897 0 : List Byte).getD 0 0 ≠ 0x09) ∧
    ((0x09 :: 0xC0 :: 0x04 :: List.replicate 894 0 : List Byte).length = 897 ∧
      12289 ≤ bitsMSB (0xC0 :: 0x04 :: List.replicate 894 0) (14 * 0) 14) ∧
    zeroPk.length = 897 ∧ zeroPk.getD 0 0 = 0x09 ∧
      ∀ i, i < 512 → bitsMSB (zeroPk.drop 1) (14 * i) 14 < 12289 := by
  refine ⟨by decide, ⟨List.length_replicate, by decide⟩, ⟨?_, by decide⟩, zeroPk_length, rfl, ?_⟩
  · rw [List.length_cons, List.length_cons, List.length_cons, List.length_replicate]
  · intro i _
    have h : ∀ k, bitAt (zeroPk.drop 1) k = 0 := by
      intro k
      have h0 : (List.replicate 896 (0 : Byte)).getD (k / 8) 0 = 0 := by
        rw [List.getD_eq_getElem?_getD, List.getElem?_replicate]
        split <;> rfl
      have h1 : zeroPk.drop 1 = List.replicate 896 0 := rfl
      rw [bitAt, h1, h0]
      simp
    simp only [bitsMSB, h, Nat.zero_mul, Finset.sum_const_zero]
    decide

theorem witness_EachPublicKeyHasOneBlob : pkDecode zeroPk = .ok Poly.zero := zeroPk_decodes

theorem witness_CoefficientCodeIsReadBack :
    (2047 ≤ Config.cfg.maxMag ∧ ¬ (true = true ∧ 2047 = 0)) ∧
    (0 ≤ Config.cfg.maxMag ∧ ¬ (false = true ∧ 0 = 0)) := by decide

theorem witness_SignatureDecodeIsUnique :
    sigDecode Config.cfg zeroSig = .ok Poly.zero ∧
      (zeroSig.drop 1).take 40 = (zeroSig.drop 1).take 40 := ⟨zeroSig_decodes, rfl⟩

theorem witness_SignatureDecodeIsBoundedAndIgnoresNonce :
    sigDecode Config.cfg zeroSig = .ok Poly.zero ∧
    (List.replicate 40 (0 : Byte)).length = 40 ∧ (List.replicate 40 (255 : Byte)).length = 40 :=
  ⟨zeroSig_decodes, rfl, rfl⟩

/-- A buffer whose first byte is a wrong header: the public key's for PKDEC and LOAD, the signature's
for SGDEC. -/
theorem badHeader_bytes (n len : Nat) (h : n ≤ len) :
    (List.range n).map (withBuf (List.replicate len 0xFF)).bufByte = List.replicate n 0xFF := by
  have := withBuf_bytes (List.replicate len 0xFF) 0 n (by simpa using h)
  simpa [Nat.min_eq_left h] using this

theorem badHeader_pk : pkDecode (List.replicate 897 0xFF) = .error .pkHeader := by
  rw [pkDecode, if_neg (by rw [List.length_replicate]; decide), if_pos (by decide)]

theorem badHeader_sig : sigDecode Config.cfg (List.replicate 666 0xFF) = .error .sigHeader := by
  rw [sigDecode, if_neg (by rw [List.length_replicate]; decide), if_pos (by decide)]

theorem withBuf_whole (bytes : List Byte) :
    (List.range bytes.length).map (withBuf bytes).bufByte = bytes := by
  simpa using withBuf_bytes bytes 0 bytes.length (by omega)

theorem withBuf_blen (bytes : List Byte) (h : bytes.length < 2048) :
    (withBuf bytes).blen.toNat = bytes.length := by
  show (BitVec.ofNat 11 bytes.length).toNat = bytes.length
  rw [BitVec.toNat_ofNat]
  exact Nat.mod_eq_of_lt h

theorem witness_DecodePublicKeyIntoRegister :
    State.reset.blen.toNat ≠ 897 ∧
    ((withBuf (List.replicate 897 0xFF)).blen.toNat = 897 ∧
      pkDecode ((List.range 897).map (withBuf (List.replicate 897 0xFF)).bufByte) =
        .error .pkHeader) ∧
    (withBuf zeroPk).blen.toNat = 897 ∧
      pkDecode ((List.range 897).map (withBuf zeroPk).bufByte) = .ok Poly.zero := by
  refine ⟨by decide, ⟨?_, ?_⟩, ?_, ?_⟩
  · rw [withBuf_blen] <;> rw [List.length_replicate]; decide
  · rw [badHeader_bytes 897 897 (by omega), badHeader_pk]
  · rw [withBuf_blen] <;> rw [zeroPk_length]; decide
  · have h := withBuf_whole zeroPk
    rw [zeroPk_length] at h
    rw [h, zeroPk_decodes]

theorem witness_DecodeSignatureIntoRegister :
    State.reset.blen.toNat ≠ 666 ∧
    ((withBuf (List.replicate 666 0xFF)).blen.toNat = 666 ∧
      sigDecode Config.cfg ((List.range 666).map (withBuf (List.replicate 666 0xFF)).bufByte) =
        .error .sigHeader) ∧
    (withBuf zeroSig).blen.toNat = 666 ∧
      sigDecode Config.cfg ((List.range 666).map (withBuf zeroSig).bufByte) = .ok Poly.zero := by
  refine ⟨by decide, ⟨?_, ?_⟩, ?_, ?_⟩
  · rw [withBuf_blen] <;> rw [List.length_replicate]; decide
  · rw [badHeader_bytes 666 666 (by omega), badHeader_sig]
  · rw [withBuf_blen] <;> rw [zeroSig_length]; decide
  · have h := withBuf_whole zeroSig
    rw [zeroSig_length] at h
    rw [h, zeroSig_decodes]

theorem witness_SetMessageAndNonceElements :
    (3 < 4 ∧ 7 < 8) ∧ mixed.x[(15 : Fin 16)] = none ∧
    (mixed.x[(0 : Fin 16)] = some 0xFFFFFFFFFFFFFFFF ∧
      Config.cfg.pWide ≤ (0xFFFFFFFFFFFFFFFF : Word64).toNat) ∧
    (withX 0xFFFFFFFF00000000).x[(0 : Fin 16)] = some 0xFFFFFFFF00000000 ∧
      (0xFFFFFFFF00000000 : Word64).toNat < Config.cfg.pWide :=
  ⟨by decide, rfl, ⟨rfl, by decide⟩, rfl, by decide⟩

theorem witness_HashToPointFollowsTheRule :
    (∀ j : Fin 4, (Vector.replicate 4 (0xFFFFFFFF00000000 : Word64))[j].toNat < Config.cfg.pWide) ∧
    (∀ j : Fin 8, (Vector.replicate 8 (0xFFFFFFFF00000000 : Word64))[j].toNat < Config.cfg.pWide) ∧
    Config.cfg.rate0 + (7 : Fin 8).val < Config.cfg.w := by decide

theorem witness_HashToPointIntoRegister :
    ((∀ j : Fin 4, full.m[j] = some (Vector.replicate 4 (0xFFFFFFFF00000000 : Word64))[j]) ∧
      ∀ j : Fin 8, full.n[j] = some (Vector.replicate 8 (0xFFFFFFFF00000000 : Word64))[j]) ∧
    ∃ j : Fin 8, { full with n := full.n.set 7 none }.n[j] = none :=
  ⟨⟨by decide, by decide⟩, 7, rfl⟩

/-- The bytes of a public-key blob, then a signature blob, in `BUF`. -/
theorem withBuf_context (pk sg : List Byte) (hp : pk.length = 897) (hs : sg.length = 666) :
    (withBuf (pk ++ sg)).blen.toNat = 1563 ∧
    (List.range 897).map (withBuf (pk ++ sg)).bufByte = pk ∧
    (List.range 666).map (fun k => (withBuf (pk ++ sg)).bufByte (897 + k)) = sg := by
  have hl : (pk ++ sg).length = 1563 := by rw [List.length_append, hp, hs]
  refine ⟨by rw [withBuf_blen _ (by omega), hl], ?_, ?_⟩
  · have h := withBuf_bytes (pk ++ sg) 0 897 (by omega)
    simp only [Nat.zero_add, List.drop_zero] at h
    rw [← hp, List.take_left] at h
    rw [← hp]; exact h
  · have h := withBuf_bytes (pk ++ sg) 897 666 (by omega)
    rw [List.drop_left' hp, List.take_of_length_le (by omega)] at h
    exact h

theorem witness_LoadTakesAllOrNothing_accepted :
    (withBuf (zeroPk ++ zeroSig)).blen.toNat = 1563 ∧
    pkDecode ((List.range 897).map (withBuf (zeroPk ++ zeroSig)).bufByte) = .ok Poly.zero ∧
    sigDecode Config.cfg
      ((List.range 666).map fun k => (withBuf (zeroPk ++ zeroSig)).bufByte (897 + k)) =
        .ok Poly.zero := by
  obtain ⟨h1, h2, h3⟩ := withBuf_context zeroPk zeroSig zeroPk_length zeroSig_length
  exact ⟨h1, by rw [h2, zeroPk_decodes], by rw [h3, zeroSig_decodes]⟩

theorem witness_LoadTakesAllOrNothing_rejected :
    State.reset.blen.toNat ≠ 1563 ∧
    ((withBuf (List.replicate 897 0xFF ++ zeroSig)).blen.toNat = 1563 ∧
      pkDecode ((List.range 897).map (withBuf (List.replicate 897 0xFF ++ zeroSig)).bufByte) =
        .error .pkHeader) ∧
    (withBuf (zeroPk ++ List.replicate 666 0xFF)).blen.toNat = 1563 ∧
    pkDecode ((List.range 897).map (withBuf (zeroPk ++ List.replicate 666 0xFF)).bufByte) =
      .ok Poly.zero ∧
    sigDecode Config.cfg
      ((List.range 666).map fun k => (withBuf (zeroPk ++ List.replicate 666 0xFF)).bufByte (897 + k)) =
        .error .sigHeader := by
  obtain ⟨h1, h2, -⟩ := withBuf_context (List.replicate 897 0xFF) zeroSig List.length_replicate
    zeroSig_length
  obtain ⟨h3, h4, h5⟩ := withBuf_context zeroPk (List.replicate 666 0xFF) zeroPk_length
    List.length_replicate
  exact ⟨by decide, ⟨h1, by rw [h2, badHeader_pk]⟩, h3, by rw [h4, zeroPk_decodes],
    by rw [h5, badHeader_sig]⟩

theorem witness_StoreWritesTheRawBytes :
    State.reset.sig = none ∧ full.sig = some zeroSignature ∧ 1563 ≤ 1563 := ⟨rfl, rfl, by decide⟩

theorem witness_StoreThenLoadIsTheSameContext : full.Inv ∧ full.sig = some zeroSignature :=
  ⟨full_inv, rfl⟩

theorem witness_ExtractNonce : State.reset.sig = none ∧ full.sig = some zeroSignature := ⟨rfl, rfl⟩

theorem witness_CopyDecodedPolynomials : State.reset.sig = none ∧ full.sig = some zeroSignature :=
  ⟨rfl, rfl⟩

theorem witness_SetCommitmentLimb :
    (3 : Fin 512).val < 4 ∧ mixed.x[(0 : Fin 16)] = some 0xFFFFFFFFFFFFFFFF ∧
      mixed.x[(15 : Fin 16)] = none := ⟨by decide, rfl, rfl⟩

/-! A state on which VERIFY accepts, whatever the two opaque functions are: the public key is the
hashed point itself and the signature polynomial is 1, so the first polynomial is 0. -/

/-- The polynomial 1. -/
def onePoly : Poly := Poly.zero.set 0 1

theorem polyAt_zeros (r n : Nat) : polyAt r (List.replicate n 0) = 0 := by
  induction n with
  | zero => rfl
  | succ n ih => simp [List.replicate_succ, polyAt, ih]

theorem nttOf_one (g : Cfg) (k : Nat) (hk : k < 512) : (nttOf g onePoly)[k] = 1 := by
  have h : onePoly.toList = 1 :: List.replicate 511 0 := rfl
  simp only [nttOf, tabulate_getElem, h, polyAt, polyAt_zeros]
  rfl

theorem inttOf_zero (g : Cfg) : inttOf g Poly.zero = Poly.zero := by
  ext i hi
  have h : Poly.zero.toList = List.replicate 512 0 := rfl
  simp only [inttOf, tabulate_getElem, h, polyAt_zeros, Poly.zero_getElem]
  rfl

theorem recoverS1_one (g : Cfg) (cp : Poly) : recoverS1 g cp onePoly cp = Poly.zero := by
  have h : pointwiseSub (nttOf g cp) (hadamardOf (nttOf g onePoly) (nttOf g cp)) = Poly.zero := by
    ext k hk
    have h1 : fieldMul 1 (nttOf g cp)[k] = (nttOf g cp)[k] := by
      rw [fieldMul, Fin.val_one, Nat.one_mul, Fq.ofNat_val_self]
    have h2 : ∀ v : Fq, fieldSub v v = 0 := fun v => by
      rw [fieldSub, Int.sub_self]; rfl
    simp only [pointwiseSub, hadamardOf, tabulate_getElem, nttOf_one, h1, h2, Fin.getElem_fin,
      Poly.zero_getElem]
  rw [recoverS1, h, inttOf_zero]

/-- The zero message. -/
def noMessage : Vector Word64 4 := Vector.replicate 4 0

/-- The point the zero message and the nonce of `zeroSignature` hash to. -/
noncomputable def somePoint : Poly :=
  hashToPoint Config.cfg noMessage (nonceElements zeroSignature.sgb)

/-- A state on which VERIFY accepts. -/
noncomputable def accepting : State :=
  { full with
    m := noMessage.map some
    c := (Config.cfg.commitHash somePoint).map some
    sig := some { zeroSignature with h := somePoint, s2 := onePoly } }

theorem accepting_registers :
    (∀ j : Fin 4, accepting.m[j] = some noMessage[j]) ∧
    ∀ j : Fin 4, accepting.c[j] = some (Config.cfg.commitHash somePoint)[j] := by
  constructor <;> intro j <;> simp [accepting]

theorem normSquared_zero : normSquared Poly.zero = 0 := by decide +kernel

theorem normSquared_one : normSquared onePoly = 1 := by decide +kernel

theorem witness_VerifyWritesTheVerdict_accepted :
    accepting.sig = some { zeroSignature with h := somePoint, s2 := onePoly } ∧
    normSquared (inttOf Config.cfg (pointwiseSub (nttOf Config.cfg somePoint)
        (hadamardOf (nttOf Config.cfg onePoly) (nttOf Config.cfg somePoint)))) +
      normSquared onePoly < Config.cfg.l2Bound := by
  refine ⟨rfl, ?_⟩
  have h := recoverS1_one Config.cfg somePoint
  rw [recoverS1] at h
  rw [h, normSquared_zero, normSquared_one]
  decide

theorem normSquared_largest : normSquared (Vector.replicate 512 6144) = 19327352832 := by
  decide +kernel

/-- The other clauses: an element without a value, no signature, a commitment that differs, and a
signature polynomial that alone is above the bound. -/
theorem witness_VerifyWritesTheVerdict_rejected :
    ((∃ j : Fin 4, mixed.m[j] = none) ∨ ∃ j : Fin 4, mixed.c[j] = none) ∧
    { full with sig := none }.sig = none ∧
    (∃ j : Fin 4, (Config.cfg.commitHash Poly.zero)[j] ≠
      ((Config.cfg.commitHash Poly.zero).map (· + 1))[j]) ∧
    ∀ s1 : Poly, Config.cfg.l2Bound ≤ normSquared s1 + normSquared (Vector.replicate 512 6144) := by
  refine ⟨.inl ⟨0, rfl⟩, rfl, ⟨0, ?_⟩, fun s1 => ?_⟩
  · simp only [Fin.getElem_fin, Vector.getElem_map]
    generalize (Config.cfg.commitHash Poly.zero)[(0 : Fin 4).val] = v
    intro h
    simp at h
  · rw [normSquared_largest]
    have : Config.cfg.l2Bound = 34034726 := rfl
    omega

/-- 7048 = 49^3 is another legal `PSI`. -/
theorem witness_VerdictDoesNotDependOnPsi :
    (7048 : Fq).val ^ 1024 % q = 1 ∧ (7048 : Fq).val ^ 512 % q ≠ 1 := by decide +kernel

theorem witness_PrimitiveCommandsReplayVerify :
    accepting.faultFree ∧ accepting.sig = some { zeroSignature with h := somePoint, s2 := onePoly } ∧
    (∀ j : Fin 4, accepting.m[j] = some noMessage[j]) ∧
    ∀ j : Fin 4, accepting.c[j] = some (Config.cfg.commitHash somePoint)[j] :=
  ⟨rfl, rfl, accepting_registers.1, accepting_registers.2⟩

end Sys2Proof.Tests
end

/-! ## The host's control registers (`10_state.md`)

What reset leaves, the words of `STATUS` and `ERR`, and what the host's reads and writes of the control
registers do. -/

namespace Sys2Proof.Machine

/-! ### Reset -/

/-- Settles O1: each row of the table of rule R60 read off the reset state. -/
theorem resetLeavesNoValues : Obligations.ResetLeavesNoValues := by
  refine ⟨?x, ?f, ?p, ?m, ?n, ?c, rfl, rfl, rfl, rfl, rfl, fun a => rfl⟩
  all_goals
    intro i
    simp [State.reset]

/-- The hard reset takes its action off the list and resets. -/
theorem step_hardReset (s : State) (rest : List Input) :
    step { s with pending := .hardReset :: rest } =
      .next ({ s with pending := rest } : State).afterReset := rfl

/-! ### Host writes of the control registers, one equation per number (rule R46) -/

theorem hostWriteCsr_blen (v : Word64) (s : State) :
    hostWriteCsr 0x03 v s = .next { s with blen := v.setWidth 11 } := rfl

theorem hostWriteCsr_ctrl (v : Word64) (s : State) :
    hostWriteCsr 0x04 v s = .next (if v.getLsbD 0 then s.afterReset else s) := rfl

theorem hostWriteCsr_cmd (v : Word64) (s : State) :
    hostWriteCsr 0x05 v s = issue (v.setWidth 32) s := rfl

theorem hostWriteCsr_x (i : Fin 16) (v : Word64) (s : State) :
    hostWriteCsr (0x10 + i.val) v s = .next (s.setX i v) := by
  have above : ∀ k, k < 0x10 → ¬ 0x10 + i.val = k := fun k hk => by omega
  simp [hostWriteCsr, above, xOfCsr_x]

/-- A write of a read-only or unlisted number is ignored. -/
theorem hostWriteCsr_ignored {num : Nat} (h : num < 0x03 ∨ (0x05 < num ∧ num < 0x10) ∨ 0x1F < num)
    (v : Word64) (s : State) : hostWriteCsr num v s = .next s := by
  have unlisted : ∀ k, 0x03 ≤ k → k ≤ 0x05 → ¬ num = k := fun k h1 h2 => by omega
  simp [hostWriteCsr, unlisted, xOfCsr_none (show num < 0x10 ∨ 0x1F < num by omega)]

/-- Everything a host write of a control register can do. -/
theorem hostWriteCsr_cases {num : Nat} {v : Word64} {s t : State}
    (h : hostWriteCsr num v s = .next t) :
    (num = 0x03 ∧ t = { s with blen := v.setWidth 11 }) ∨
    (num = 0x04 ∧ t = if v.getLsbD 0 then s.afterReset else s) ∨
    (num = 0x05 ∧ issue (v.setWidth 32) s = .next t) ∨
    (∃ i : Fin 16, num = 0x10 + i.val ∧ t = s.setX i v) ∨ t = s := by
  by_cases hx : 0x10 ≤ num ∧ num ≤ 0x1F
  · obtain ⟨i, rfl⟩ : ∃ i : Fin 16, num = 0x10 + i.val :=
      ⟨⟨num - 0x10, by omega⟩, (Nat.add_sub_cancel' hx.1).symm⟩
    rw [hostWriteCsr_x, Host.Outcome.next.injEq] at h
    exact .inr (.inr (.inr (.inl ⟨i, rfl, h.symm⟩)))
  · by_cases hlow : 0x03 ≤ num ∧ num ≤ 0x05
    · obtain rfl | rfl | rfl : num = 0x03 ∨ num = 0x04 ∨ num = 0x05 := by omega
      · rw [hostWriteCsr_blen, Host.Outcome.next.injEq] at h
        exact .inl ⟨rfl, h.symm⟩
      · rw [hostWriteCsr_ctrl, Host.Outcome.next.injEq] at h
        exact .inr (.inl ⟨rfl, h.symm⟩)
      · exact .inr (.inr (.inl ⟨rfl, h⟩))
    · rw [hostWriteCsr_ignored (by omega), Host.Outcome.next.injEq] at h
      exact .inr (.inr (.inr (.inr h.symm)))

/-- The step that a host write makes. -/
theorem step_writeCsr (s : State) (rest : List Input) (num : Nat) (v : Word64) :
    step { s with pending := .writeCsr num v :: rest } =
      hostWriteCsr num v { s with pending := rest } := rfl

/-- Settles O2: both resets are `State.afterReset`, and the model's own fields go on. -/
theorem bothResetsGiveTheResetState : Obligations.BothResetsGiveTheResetState := by
  intro s rest v
  refine ⟨step_hardReset s rest, fun hv => ?set, fun hv => ?clear⟩
  case set => rw [step_writeCsr, hostWriteCsr_ctrl, if_pos hv]; rfl
  case clear => rw [step_writeCsr, hostWriteCsr_ctrl, hv]; rfl

/-- Settles O18: the equations of `hostWriteCsr` for `BLEN`, the `x` registers, and the numbers that
ignore a write. -/
theorem hostWritesControlRegisters : Obligations.HostWritesControlRegisters := by
  intro s rest v
  refine ⟨⟨v.setWidth 11, BitVec.toNat_setWidth .., ?blen⟩, fun i => ?x, fun num h => ?ignored⟩
  case blen => rw [step_writeCsr, hostWriteCsr_blen]
  case x => rw [step_writeCsr, hostWriteCsr_x]; rfl
  case ignored => rw [step_writeCsr, hostWriteCsr_ignored h]

/-! ### The words of `STATUS` and `ERR` -/

/-- A concatenation as the sum of its parts, the high one shifted by the width of the low one. -/
theorem toNat_append_eq_add {n k : Nat} (high : BitVec n) (low : BitVec k) :
    (high ++ low).toNat = high.toNat * 2 ^ k + low.toNat := by
  rw [BitVec.toNat_append, ← Nat.shiftLeft_add_eq_or_of_lt low.isLt, Nat.shiftLeft_eq]

/-- `STATUS` as the sum of its fields (rule R47). -/
theorem statusWord_toNat (s : State) :
    s.statusWord.toNat = s.sigv.toNat + 2 * s.fault.isSome.toNat + 16 * s.fcode.toNat := by
  have hfault := s.fault.isSome.toNat_lt
  have hsigv := s.sigv.toNat_lt
  simp only [State.statusWord, toNat_append_eq_add, BitVec.toNat_ofBool,
    BitVec.ofNat_eq_ofNat, BitVec.toNat_ofNat, Nat.zero_mod]
  omega

/-- Settles O15: `STATUS` is the sum of its fields, each read off the state; `ERR` is looked up error
by error. -/
theorem statusAndErrLayout : Obligations.StatusAndErrLayout := by
  refine ⟨fun s => ?status, fun s => ?err⟩
  case status =>
    have hsigv : s.sigv.toNat = if s.sig = none then 0 else 1 := by
      unfold State.sigv
      cases s.sig <;> rfl
    have hfault : 2 * s.fault.isSome.toNat = if s.fault = none then 0 else 2 := by
      cases s.fault <;> rfl
    rw [statusWord_toNat, hsigv, hfault]
    congr 2
    unfold State.fcode
    rcases s.fault with _ | code
    · rfl
    · cases code <;> rfl
  case err =>
    unfold State.errWord
    rcases s.err with _ | e
    · rfl
    · cases e <;> rfl

/-! ### Host reads of the control registers -/

/-- The step that a host read of a register with a value makes. -/
theorem hostReads_of_csrValue {s : State} {num : Nat} {w : Word64} (h : csrValue num s = some w)
    (rest : List Input) : hostReads s rest num w := by
  have hv : csrValue num { s with pending := rest } = some w := h
  show Host.Outcome.next (hostReadCsr num { s with pending := rest }) = _
  rw [hostReadCsr, hv]
  rfl

/-- The step that a host read of something without a value makes: some word is returned and only the
counter of the free values moves. -/
theorem step_readCsr_of_no_value {s : State} {num : Nat} (h : csrValue num s = none)
    (rest : List Input) :
    ∃ (w : Word64) (drawn : Nat), step { s with pending := .readCsr num :: rest } =
      .next { s with pending := rest, reply := some (.word w), draws := drawn } := by
  have hv : csrValue num { s with pending := rest } = none := h
  refine ⟨Config.freeWord s.draws, s.draws + 1, ?_⟩
  show Host.Outcome.next (hostReadCsr num { s with pending := rest }) = _
  rw [hostReadCsr, hv]
  rfl

/-- Settles O16: each of these numbers has a value, so the read answers it. -/
theorem hostReadsControlRegisters : Obligations.HostReadsControlRegisters := by
  intro s rest
  refine ⟨?status, ?err, ?fcmd, ?blen, fun i v hx => ?x⟩
  case x => exact hostReads_of_csrValue ((csrValue_x i s).trans hx) rest
  all_goals exact hostReads_of_csrValue rfl rest

/-- Settles O17: neither an `x` register without a value nor an unlisted or write-only number has a
value to read. -/
theorem readOfNoValueReturnsSomeWord : Obligations.ReadOfNoValueReturnsSomeWord := by
  intro s rest
  refine ⟨fun i hx => ?x, fun num h => ?unlisted⟩
  case x => exact step_readCsr_of_no_value ((csrValue_x i s).trans hx) rest
  case unlisted => exact step_readCsr_of_no_value (csrValue_none h s) rest

end Sys2Proof.Machine

/-! ## The invariant of the engine (`10_state.md`)

It holds at reset and every step keeps it: by the cases of `Effect` for a command and by the action for
a step. -/

namespace Sys2Proof.Machine

/-! ### The values a command may store -/

/-- A byte sequence stands for an integer of as many bytes. -/
theorem littleEndian_lt (bytes : List Byte) : littleEndian bytes < 256 ^ bytes.length := by
  induction bytes with
  | nil => simp [littleEndian]
  | cons b bs ih =>
    have hb : b.toNat < 256 := b.isLt
    rw [littleEndian, List.length_cons, Nat.pow_succ]
    omega

/-- A nonce element is made of five bytes, so it is below every legal `P_WIDE`. -/
theorem nonceElements_lt (g : Cfg) (sgb : Vector Byte sigLen) (j : Fin 8) :
    (nonceElements sgb)[j].toNat < g.pWide := by
  rw [nonceElements, tabulate_getElem_fin, BitVec.toNat_ofNat]
  have hlt := littleEndian_lt ((sgb.toList.drop (1 + 5 * j.val)).take 5)
  have hpow : 256 ^ ((sgb.toList.drop (1 + 5 * j.val)).take 5).length ≤ 256 ^ 5 :=
    Nat.pow_le_pow_right (by decide) (List.length_take_le ..)
  have hwide := g.pWide_ge
  exact Nat.lt_of_le_of_lt (Nat.mod_le ..) (by omega)

/-- The context LOAD makes holds the decodes of its raw bytes (rule R43). -/
theorem decodeContext_decodes {g : Cfg} {s : State} {sg : Signature}
    (h : decodeContext g s = .ok sg) :
    pkDecode sg.pkb.toList = .ok sg.h ∧ sigDecode g sg.sgb.toList = .ok sg.s2 := by
  simp only [decodeContext, except_bind_eq_ok, Except.ok.injEq] at h
  obtain ⟨key, hkey, s2, hs2, rfl⟩ := h
  exact ⟨hkey, hs2⟩

/-- Writing a value that meets `P` keeps `P` of every value of a register file. -/
theorem values_set {n : Nat} {r : Vector (Option Word64) n} {P : Word64 → Prop}
    (hr : ∀ (i : Fin n) (v : Word64), r[i] = some v → P v) (k : Fin n) {w : Word64} (hw : P w)
    (i : Fin n) (v : Word64) (h : (r.set k.val (some w) k.isLt)[i] = some v) : P v := by
  rw [Fin.getElem_fin, Vector.getElem_set] at h
  split at h
  · exact Option.some.inj h ▸ hw
  · exact hr i v h

/-! ### Reset -/

/-- Settles O3: reset leaves no value, an empty `BUF` list, and `FCMD` 0. -/
theorem resetMeetsInvariant : Obligations.ResetMeetsInvariant where
  buf := Memory.wf_nil
  message i v h := by simp [State.reset] at h
  nonce i v h := by simp [State.reset] at h
  context sg h := by simp [State.reset] at h
  fcmd _ := rfl

/-! ### The invariant of one state from another -/

/-- The invariant speaks of these six fields only. -/
theorem State.Inv.congr {s t : State} (h : s.Inv) (hbuf : t.buf = s.buf) (hm : t.m = s.m)
    (hn : t.n = s.n) (hsig : t.sig = s.sig) (hfault : t.fault = s.fault)
    (hfcmd : t.fcmd = s.fcmd) : t.Inv where
  buf := hbuf ▸ h.buf
  message := hm ▸ h.message
  nonce := hn ▸ h.nonce
  context := hsig ▸ h.context
  fcmd := hfault ▸ hfcmd ▸ h.fcmd

theorem State.Inv.afterReset (s : State) : s.afterReset.Inv :=
  State.Inv.congr resetMeetsInvariant rfl rfl rfl rfl rfl rfl

/-- A fault sets `FAULT`, so nothing is asked of `FCMD` any more. -/
theorem State.Inv.takeFault {s : State} (h : s.Inv) (code : FaultCode) (w : Word32) :
    (takeFault code w s).Inv where
  buf := h.buf
  message := h.message
  nonce := h.nonce
  context := h.context
  fcmd hf := nomatch hf

/-- Writing a byte sequence inside `BUF` keeps the invariant. -/
theorem State.Inv.writeBufBytes {s : State} (h : s.Inv) {a : Nat} {bytes : List Byte}
    (hlen : a + bytes.length ≤ serLen) : (s.writeBufBytes a bytes).Inv where
  buf := Memory.wf_writeBytes h.buf hlen
  message := h.message
  nonce := h.nonce
  context := h.context
  fcmd := h.fcmd

/-! ### Commands -/

theorem Effect.keeps_inv {i : Instr} {s t : State} (h : Effect i s t) (hs : s.Inv) : t.Inv := by
  cases h with
  | x d v => exact hs.congr rfl rfl rfl rfl rfl rfl
  | f d v => exact hs.congr rfl rfl rfl rfl rfl rfl
  | p d form e => exact hs.congr rfl rfl rfl rfl rfl rfl
  | c k v => exact hs.congr rfl rfl rfl rfl rfl rfl
  | decoded d e hi => exact hs.congr rfl rfl rfl rfl rfl rfl
  | undecoded d e hi => exact hs.congr rfl rfl rfl rfl rfl rfl
  | m k v hv => exact { hs with message := values_set hs.message k hv }
  | n k v hv => exact { hs with nonce := values_set hs.nonce k hv }
  | loaded sg hi hb hd =>
    exact { hs with context := fun _ h => Option.some.inj h ▸ decodeContext_decodes hd }
  | unloaded e hi => exact { hs with context := fun _ h => nomatch h }
  | stored sg hi hsig =>
    exact (hs.writeBufBytes (by simp [pkLen, sigLen, serLen])).congr rfl rfl rfl rfl rfl rfl
  | nonce sg hi hsig =>
    refine { hs with nonce := fun j v h => ?_ }
    rw [tabulate_getElem_fin, Option.some.injEq] at h
    exact h ▸ nonceElements_lt Config.cfg sg.sgb j

theorem exec_keeps_inv {i : Instr} {s t : State} (h : exec i s = .next t) (hs : s.Inv) : t.Inv := by
  obtain heffect | ⟨code, rfl⟩ := exec_cases h
  · exact heffect.keeps_inv hs
  · exact hs.takeFault code (encode i)

theorem issue_keeps_inv {w : Word32} {s t : State} (h : issue w s = .next t) (hs : s.Inv) :
    t.Inv := by
  obtain ⟨-, rfl⟩ | ⟨-, rfl, -⟩ | ⟨-, i, -, hexec⟩ := issue_cases h
  · exact hs
  · exact hs.takeFault .illegal w
  · exact exec_keeps_inv hexec hs

/-! ### The actions of the outside world -/

theorem hostWriteCsr_keeps_inv {num : Nat} {v : Word64} {s t : State}
    (h : hostWriteCsr num v s = .next t) (hs : s.Inv) : t.Inv := by
  obtain ⟨-, rfl⟩ | ⟨-, rfl⟩ | ⟨-, hissue⟩ | ⟨i, -, rfl⟩ | rfl := hostWriteCsr_cases h
  · exact hs.congr rfl rfl rfl rfl rfl rfl
  · split
    · exact State.Inv.afterReset s
    · exact hs
  · exact issue_keeps_inv hissue hs
  · exact hs.congr rfl rfl rfl rfl rfl rfl
  · exact hs

theorem hostReadCsr_keeps_inv (num : Nat) {s : State} (hs : s.Inv) : (hostReadCsr num s).Inv := by
  obtain ⟨v, -, heq⟩ | ⟨-, heq⟩ := hostReadCsr_cases num s
  · exact heq ▸ hs.congr rfl rfl rfl rfl rfl rfl
  · exact heq ▸ hs.congr rfl rfl rfl rfl rfl rfl

theorem hostWriteBuf_keeps_inv (a : Nat) (b : Byte) {s : State} (hs : s.Inv) :
    (hostWriteBuf a b s).Inv := by
  unfold hostWriteBuf
  split
  case isTrue ha => exact { hs with buf := Memory.wf_write hs.buf ha b }
  case isFalse => exact hs

theorem hostReadBuf_keeps_inv (a : Nat) {s : State} (hs : s.Inv) : (hostReadBuf a s).Inv := by
  obtain ⟨-, heq⟩ | ⟨-, heq⟩ := hostReadBuf_cases a s
  · exact heq ▸ hs.congr rfl rfl rfl rfl rfl rfl
  · exact heq ▸ hs.congr rfl rfl rfl rfl rfl rfl

theorem perform_keeps_inv {input : Input} {s t : State} (h : perform input s = .next t)
    (hs : s.Inv) : t.Inv := by
  cases input with
  | writeCsr num v => exact hostWriteCsr_keeps_inv h hs
  | readCsr num => cases h; exact hostReadCsr_keeps_inv num hs
  | writeBuf a b => cases h; exact hostWriteBuf_keeps_inv a b hs
  | readBuf a => cases h; exact hostReadBuf_keeps_inv a hs
  | hardReset => cases h; exact State.Inv.afterReset s

/-- Settles O4: taking the action off the list keeps the invariant, and so does performing it. -/
theorem stepKeepsInvariant : Obligations.StepKeepsInvariant := by
  intro s t hs h
  obtain ⟨-, rfl⟩ | ⟨input, rest, -, hperform⟩ := step_cases h
  · exact hs
  · exact perform_keeps_inv hperform (hs.congr rfl rfl rfl rfl rfl rfl)

/-! ### What writes `ERR` -/

/-- An effect that leaves another `ERR` is that of LOAD, PKDEC or SGDEC. -/
theorem Effect.err_writer {i : Instr} {s t : State} (h : Effect i s t) (hne : t.err ≠ s.err) :
    i = .load ∨ (∃ d, i = .pkdec d) ∨ ∃ d, i = .sgdec d := by
  cases h with
  | decoded d e hi => exact .inr (hi.imp (⟨d, ·⟩) (⟨d, ·⟩))
  | undecoded d e hi => exact .inr (hi.imp (⟨d, ·⟩) (⟨d, ·⟩))
  | loaded sg hi hb hd => exact .inl hi
  | unloaded e hi => exact .inl hi
  | x | f | p | m | n | c | stored | nonce => exact absurd rfl hne

/-- Settles O12: a command's effect writes `ERR` only in those commands, and a fault never does. -/
theorem onlyDecodeCommandsWriteErr : Obligations.OnlyDecodeCommandsWriteErr := by
  intro i s t h hne
  obtain heffect | ⟨code, rfl⟩ := exec_cases h
  · exact heffect.err_writer hne
  · exact absurd (takeFault_err code (encode i) s) hne

end Sys2Proof.Machine

/-! ## `BUF` and the signature context (`20_memory.md`)

The host's accesses to `BUF`; and what writes `SIG` and `BUF`, by the cases of `Effect` for a command
and by the action for a step. -/

namespace Sys2Proof.Machine

/-! ### The host's accesses to `BUF` (rules R73, R81) -/

theorem hostWriteBuf_inside {a : Nat} (h : a < serLen) (b : Byte) (s : State) :
    hostWriteBuf a b s = { s with buf := s.buf.write a b } := if_pos h

theorem hostWriteBuf_outside {a : Nat} (h : serLen ≤ a) (b : Byte) (s : State) :
    hostWriteBuf a b s = s := if_neg (Nat.not_lt.2 h)

theorem hostReadBuf_inside {a : Nat} (h : a < serLen) (s : State) :
    hostReadBuf a s = s.answer (.byte (s.bufByte a)) := if_pos h

theorem hostReadBuf_outside {a : Nat} (h : serLen ≤ a) (s : State) :
    hostReadBuf a s = s.answerFree fun n => .byte (Config.freeByte n) := if_neg (Nat.not_lt.2 h)

/-- The step that a host write of a byte makes. -/
theorem step_writeBuf (s : State) (rest : List Input) (a : Nat) (b : Byte) :
    step { s with pending := .writeBuf a b :: rest } =
      .next (hostWriteBuf a b { s with pending := rest }) := rfl

/-- The step that a host read of a byte makes. -/
theorem step_readBuf (s : State) (rest : List Input) (a : Nat) :
    step { s with pending := .readBuf a :: rest } =
      .next (hostReadBuf a { s with pending := rest }) := rfl

/-- Settles O19: the equations of the two accesses inside and outside `BUF`; the bytes after a write
are `State.bufByte_write`. -/
theorem hostAccessesBufByteByByte : Obligations.HostAccessesBufByteByByte := by
  intro s rest a b
  refine ⟨fun ha => ?writeInside, fun ha => ?writeOutside, fun ha => ?readInside,
    fun ha => ?readOutside⟩
  case writeInside =>
    refine ⟨s.buf.write a b, ?_, fun k => State.bufByte_write s a k b⟩
    rw [step_writeBuf, hostWriteBuf_inside (Nat.lt_succ_of_le ha)]
  case writeOutside => rw [step_writeBuf, hostWriteBuf_outside ha]
  case readInside =>
    rw [step_readBuf, hostReadBuf_inside (Nat.lt_succ_of_le ha)]
    rfl
  case readOutside =>
    refine ⟨Config.freeByte s.draws, s.draws + 1, ?_⟩
    rw [step_readBuf, hostReadBuf_outside ha]
    rfl

/-! ### The word of LOAD -/

/-- LOAD's row is the only one that gives LOAD, and its format wants every other field 0. -/
theorem decodeFields_eq_load {F : Fields} (h : decodeFields F = .ok .load) :
    F = encodeFields .load := by
  unfold decodeFields at h
  split at h
  case h_21 hop =>
    rw [except_bind_eq_ok] at h
    obtain ⟨⟨⟩, hzero, -⟩ := h
    simp only [Fields.formatZ, requireZero_eq_ok, List.forall_mem_cons] at hzero
    obtain ⟨hrd, hra, hrb, hz, hidx, -⟩ := hzero
    obtain ⟨op, rd, ra, rb, z, idx⟩ := F
    rw [encodeFields, Fields.mk.injEq]
    exact ⟨hop, hrd, hra, hrb, hz, hidx⟩
  all_goals simp [except_bind_eq_ok] at h

theorem decode_eq_load {w : Word32} (h : decode w = .ok .load) : w = 0x40000000 := by
  rw [← packFields_fieldsOf w, decodeFields_eq_load h]
  rfl

/-! ### What writes `SIG` -/

/-- An effect that leaves another `SIG` is that of LOAD. -/
theorem Effect.sig_writer {i : Instr} {s t : State} (h : Effect i s t) (hne : t.sig ≠ s.sig) :
    i = .load := by
  cases h with
  | loaded sg hi hb hd => exact hi
  | unloaded e hi => exact hi
  | x | f | p | m | n | c | decoded | undecoded | stored | nonce => exact absurd rfl hne

theorem exec_sig_writer {i : Instr} {s t : State} (h : exec i s = .next t) (hne : t.sig ≠ s.sig) :
    i = .load := by
  obtain heffect | ⟨code, rfl⟩ := exec_cases h
  · exact heffect.sig_writer hne
  · exact absurd (takeFault_sig code (encode i) s) hne

theorem issue_sig_writer {w : Word32} {s t : State} (h : issue w s = .next t)
    (hne : t.sig ≠ s.sig) : w = 0x40000000 := by
  obtain ⟨-, rfl⟩ | ⟨-, rfl, -⟩ | ⟨-, i, hdecode, hexec⟩ := issue_cases h
  · exact absurd rfl hne
  · exact absurd (takeFault_sig .illegal w s) hne
  · exact decode_eq_load (exec_sig_writer hexec hne ▸ hdecode)

/-- A host write that leaves another `SIG` is the soft reset or the issue of LOAD. -/
theorem hostWriteCsr_sig_writer {num : Nat} {v : Word64} {s t : State}
    (h : hostWriteCsr num v s = .next t) (hne : t.sig ≠ s.sig) :
    (num = 0x04 ∧ v.getLsbD 0 = true) ∨ (num = 0x05 ∧ v.setWidth 32 = (0x40000000 : Word32)) := by
  obtain ⟨-, rfl⟩ | ⟨hnum, rfl⟩ | ⟨hnum, hissue⟩ | ⟨i, -, rfl⟩ | rfl := hostWriteCsr_cases h
  · exact absurd rfl hne
  · refine .inl ⟨hnum, ?_⟩
    by_contra hclear
    exact hne (by rw [if_neg hclear])
  · exact .inr ⟨hnum, issue_sig_writer hissue hne⟩
  · exact absurd (State.setX_sig s i v) hne
  · exact absurd rfl hne

theorem hostReadCsr_sig (num : Nat) (s : State) : (hostReadCsr num s).sig = s.sig := by
  obtain ⟨v, -, heq⟩ | ⟨-, heq⟩ := hostReadCsr_cases num s
  · rw [heq, State.answer_sig]
  · rw [heq, State.answerFree_sig]

theorem hostWriteBuf_sig (a : Nat) (b : Byte) (s : State) : (hostWriteBuf a b s).sig = s.sig := by
  obtain ha | ha := Nat.lt_or_ge a serLen
  · rw [hostWriteBuf_inside ha]
  · rw [hostWriteBuf_outside ha]

theorem hostReadBuf_sig (a : Nat) (s : State) : (hostReadBuf a s).sig = s.sig := by
  obtain ⟨-, heq⟩ | ⟨-, heq⟩ := hostReadBuf_cases a s
  · rw [heq, State.answer_sig]
  · rw [heq, State.answerFree_sig]

/-- Settles O13: of the actions only the hard reset and the two host writes of
`hostWriteCsr_sig_writer` leave another `SIG`. -/
theorem onlyLoadAndResetChangeSig : Obligations.OnlyLoadAndResetChangeSig := by
  intro s t h hne
  obtain ⟨-, rfl⟩ | ⟨input, rest, hpending, hperform⟩ := step_cases h
  · exact absurd rfl hne
  · cases input with
    | hardReset => exact .inl ⟨rest, .inl hpending⟩
    | writeCsr num v =>
      obtain ⟨rfl, hbit⟩ | ⟨rfl, hword⟩ := hostWriteCsr_sig_writer hperform hne
      · exact .inl ⟨rest, .inr ⟨v, hpending, hbit⟩⟩
      · exact .inr ⟨v, rest, hpending, hword⟩
    | readCsr num => cases hperform; exact absurd (hostReadCsr_sig num _) hne
    | writeBuf a b => cases hperform; exact absurd (hostWriteBuf_sig a b _) hne
    | readBuf a => cases hperform; exact absurd (hostReadBuf_sig a _) hne

/-! ### What writes `BUF` -/

/-- The effect of a command other than STORE leaves `BLEN`, `BUF` and the reset count. -/
theorem Effect.buf_frame {i : Instr} {s t : State} (h : Effect i s t) (hi : i ≠ .store) :
    t.blen = s.blen ∧ t.buf = s.buf ∧ t.resets = s.resets := by
  cases h with
  | stored sg hstore hsig => exact absurd hstore hi
  | x | f | p | m | n | c | decoded | undecoded | loaded | unloaded | nonce => exact ⟨rfl, rfl, rfl⟩

/-- Settles O14: neither a fault nor an effect other than STORE's touches `BLEN` or `BUF`, and equal
`BUF` lists read the same bytes. -/
theorem onlyStoreWritesBuf : Obligations.OnlyStoreWritesBuf := by
  intro i s t h hi
  have hframe : t.blen = s.blen ∧ t.buf = s.buf ∧ t.resets = s.resets := by
    obtain heffect | ⟨code, rfl⟩ := exec_cases h
    · exact heffect.buf_frame hi
    · exact ⟨rfl, rfl, rfl⟩
  obtain ⟨hblen, hbuf, hresets⟩ := hframe
  exact ⟨hblen, congrFun (State.bufByte_congr hbuf hresets)⟩

end Sys2Proof.Machine

/-! ## The encoding of commands (`30_encoding.md`)

A word decodes to a command exactly when it is the word of that well-formed command
(`decode_eq_ok_iff`), and to some command exactly when it fits a row of the table
(`decodeFields_succeeds_iff`, by the masks of the rows field by field). -/

namespace Sys2Proof
open Machine

/-! ### The checks of the decoder -/

@[simp] theorem Fields.formatZ_eq_ok {F : Fields} {u : Unit} :
    F.formatZ = .ok u ↔ F.rd = 0 ∧ F.ra = 0 ∧ F.rb = 0 ∧ F.z = 0 ∧ F.idx = 0 :=
  requireZero_eq_ok.trans (by simp)

@[simp] theorem Fields.formatD_eq_ok {F : Fields} {u : Unit} :
    F.formatD = .ok u ↔ F.ra = 0 ∧ F.rb = 0 ∧ F.z = 0 ∧ F.idx = 0 :=
  requireZero_eq_ok.trans (by simp)

@[simp] theorem Fields.formatDA_eq_ok {F : Fields} {u : Unit} :
    F.formatDA = .ok u ↔ F.rb = 0 ∧ F.z = 0 ∧ F.idx = 0 :=
  requireZero_eq_ok.trans (by simp)

@[simp] theorem Fields.formatDAB_eq_ok {F : Fields} {u : Unit} :
    F.formatDAB = .ok u ↔ F.z = 0 ∧ F.idx = 0 :=
  requireZero_eq_ok.trans (by simp)

@[simp] theorem Fields.formatDAI_eq_ok {F : Fields} {u : Unit} :
    F.formatDAI = .ok u ↔ F.rb = 0 ∧ F.z = 0 :=
  requireZero_eq_ok.trans (by simp)

@[simp] theorem Fields.formatAI_eq_ok {F : Fields} {u : Unit} :
    F.formatAI = .ok u ↔ F.rd = 0 ∧ F.rb = 0 ∧ F.z = 0 :=
  requireZero_eq_ok.trans (by simp)

theorem reg16_val_of_lt {v : Nat} (h : v < 16) : (reg16 v).val = v := Nat.mod_eq_of_lt h

theorem coeffIdx_val_of_lt {v : Nat} (h : v < 512) : (coeffIdx v).val = v := Nat.mod_eq_of_lt h

theorem elementIdx_val {n : Nat} {k : Idx} (h : k.val < n) : elementIdx n k.val = .ok k :=
  (elementIdx_eq_ok k.isLt).2 ⟨rfl, h⟩

/-! ### Decode and encode -/

/-- Row by row of the decoder: a format's unused fields are 0, an index into `p` or into an element file
is the operand itself, and any other index loses no bit of its field. -/
theorem encodeFields_of_decodeFields {F : Fields} {i : Instr} (hF : F.Fits)
    (h : decodeFields F = .ok i) : F = encodeFields i ∧ i.WellFormed := by
  obtain ⟨op, rd, ra, rb, z, idx⟩ := F
  obtain ⟨-, hrd, hra, hrb, -, hidx⟩ := hF
  unfold decodeFields at h
  split at h
  case h_28 => cases h
  all_goals
    subst_vars
    simp only [except_bind_eq_ok, Fields.formatZ_eq_ok, Fields.formatD_eq_ok, Fields.formatDA_eq_ok,
      Fields.formatDAB_eq_ok, Fields.formatDAI_eq_ok, Fields.formatAI_eq_ok, polyReg_eq_ok,
      elementIdx_eq_ok hidx, Except.ok.injEq] at h hrd hra hrb hidx
  -- format `Z`
  case h_21 | h_22 | h_23 =>
    obtain ⟨-, ⟨rfl, rfl, rfl, rfl, rfl⟩, rfl⟩ := h
    exact ⟨rfl, rfl⟩
  -- format `D`, with `rd` an index into `p` or into `x`
  case h_7 | h_16 | h_17 | h_20 | h_24 | h_25 =>
    obtain ⟨-, ⟨rfl, rfl, rfl, rfl⟩, d, rfl, rfl⟩ := h
    exact ⟨rfl, rfl⟩
  case h_27 =>
    obtain ⟨-, ⟨rfl, rfl, rfl, rfl⟩, rfl⟩ := h
    exact ⟨by simp [encodeFields, reg16_val_of_lt, hrd], rfl⟩
  -- format `DA`
  case h_1 | h_2 | h_6 =>
    obtain ⟨-, ⟨rfl, rfl, rfl⟩, rfl⟩ := h
    exact ⟨by simp [encodeFields, reg16_val_of_lt, hrd, hra], rfl⟩
  case h_10 | h_11 =>
    obtain ⟨-, ⟨rfl, rfl, rfl⟩, d, rfl, a, rfl, rfl⟩ := h
    exact ⟨rfl, rfl⟩
  case h_14 =>
    obtain ⟨-, ⟨rfl, rfl, rfl⟩, a, rfl, rfl⟩ := h
    exact ⟨by simp [encodeFields, reg16_val_of_lt, hrd], rfl⟩
  -- format `DAB`
  case h_3 | h_4 | h_5 =>
    obtain ⟨-, ⟨rfl, rfl⟩, rfl⟩ := h
    exact ⟨by simp [encodeFields, reg16_val_of_lt, hrd, hra, hrb], rfl⟩
  case h_12 | h_13 =>
    obtain ⟨-, ⟨rfl, rfl⟩, d, rfl, a, rfl, b, rfl, rfl⟩ := h
    exact ⟨rfl, rfl⟩
  case h_15 =>
    obtain ⟨-, ⟨rfl, rfl⟩, a, rfl, b, rfl, rfl⟩ := h
    exact ⟨by simp [encodeFields, reg16_val_of_lt, hrd], rfl⟩
  -- format `DAI`
  case h_8 =>
    obtain ⟨-, ⟨rfl, rfl⟩, d, rfl, rfl⟩ := h
    exact ⟨by simp [encodeFields, reg16_val_of_lt, coeffIdx_val_of_lt, hra, hidx], rfl⟩
  case h_9 =>
    obtain ⟨-, ⟨rfl, rfl⟩, a, rfl, rfl⟩ := h
    exact ⟨by simp [encodeFields, reg16_val_of_lt, coeffIdx_val_of_lt, hrd, hidx], rfl⟩
  -- format `AI`
  case h_18 | h_19 | h_26 =>
    obtain ⟨-, ⟨rfl, rfl, rfl⟩, k, ⟨rfl, hk⟩, rfl⟩ := h
    exact ⟨by simp [encodeFields, reg16_val_of_lt, hra], decide_eq_true hk⟩

/-- Row by row of the encoder: the fields of a command pass the checks of its row. -/
theorem decodeFields_encodeFields {i : Instr} (hi : i.WellFormed) :
    decodeFields (encodeFields i) = .ok i := by
  cases i
  case mset a k | nset a k | cset a k =>
    have hk := of_decide_eq_true hi
    simp [decodeFields, encodeFields, except_bind_eq_ok, elementIdx_val hk, reg16_val]
  all_goals
    simp [decodeFields, encodeFields, except_bind_eq_ok, polyReg_val, reg16_val, coeffIdx_val]

/-- A word decodes to a command exactly when it is the word of that command, which is well formed. -/
theorem decode_eq_ok_iff {w : Word32} {i : Instr} :
    decode w = .ok i ↔ encode i = w ∧ i.WellFormed := by
  constructor
  · intro h
    obtain ⟨hfields, hi⟩ := encodeFields_of_decodeFields (fieldsOf_fits w) h
    exact ⟨by rw [encode, ← hfields, packFields_fieldsOf], hi⟩
  · rintro ⟨rfl, hi⟩
    rw [decode, Laws.FieldsOfWord.holds i]
    exact decodeFields_encodeFields hi

/-- Settles O21: the word of a command decodes to it. -/
theorem decodeOfEncodeIsTheCommand : Obligations.DecodeOfEncodeIsTheCommand :=
  fun _ hi => decode_eq_ok_iff.2 ⟨rfl, hi⟩

/-- Settles O22: what decodes to a command is its word. -/
theorem encodeOfDecodeIsTheWord : Obligations.EncodeOfDecodeIsTheWord :=
  fun _ _ h => decode_eq_ok_iff.1 h

/-- Settles O23: each of the words is the word of the command beside it. -/
theorem exampleWordsDecode : Obligations.ExampleWordsDecode := by
  refine ⟨?_, ?_, ?_, ?_, ?_, ?_, ?_, ?_⟩
  all_goals exact decode_eq_ok_iff.2 ⟨rfl, rfl⟩

/-! ### The rows of the table, field by field -/

/-- The bitwise AND of two words' fields, field by field. -/
def Fields.and (F G : Fields) : Fields where
  op := F.op &&& G.op
  rd := F.rd &&& G.rd
  ra := F.ra &&& G.ra
  rb := F.rb &&& G.rb
  z := F.z &&& G.z
  idx := F.idx &&& G.idx

theorem fieldsOf_and (w v : Word32) : fieldsOf (w &&& v) = (fieldsOf w).and (fieldsOf v) := by
  have hand (k n : Nat) : (w.toNat &&& v.toNat) / 2 ^ k % 2 ^ n =
      w.toNat / 2 ^ k % 2 ^ n &&& v.toNat / 2 ^ k % 2 ^ n := by
    rw [Nat.and_div_two_pow, Nat.and_mod_two_pow]
  rw [fieldsOf, BitVec.toNat_and, Fields.and, Fields.mk.injEq]
  exact ⟨Nat.and_div_two_pow, hand 20 4, hand 16 4, hand 12 4, hand 9 3,
    Nat.and_mod_two_pow (n := 9)⟩

/-- A word fits a row exactly when its fields do. -/
theorem fitsRow_iff_fields {w : Word32} {row : Word32 × Word32} :
    fitsRow w row ↔ (fieldsOf w).and (fieldsOf row.2) = fieldsOf row.1 := by
  have hinj : Function.Injective fieldsOf := Function.LeftInverse.injective packFields_fieldsOf
  rw [← fieldsOf_and, hinj.eq_iff]

/-- The bits `n` to `k - 1` of a `k`-bit value are 0 exactly when it is below `2 ^ n`. -/
theorem and_two_pow_sub_two_pow_eq_zero {v n k : Nat} (hv : v < 2 ^ k) (hn : n ≤ k) :
    v &&& (2 ^ k - 2 ^ n) = 0 ↔ v < 2 ^ n := by
  obtain ⟨m, rfl⟩ := Nat.exists_eq_add_of_le hn
  have hmask : 2 ^ (n + m) - 2 ^ n = 2 ^ n * (2 ^ m - 1) := by rw [Nat.pow_add, Nat.mul_sub_one]
  have hpos : 0 < 2 ^ n := Nat.two_pow_pos n
  have hhigh : (v &&& (2 ^ (n + m) - 2 ^ n)) / 2 ^ n = v / 2 ^ n := by
    rw [Nat.and_div_two_pow, hmask, Nat.mul_div_cancel_left _ hpos,
      Nat.and_two_pow_sub_one_of_lt_two_pow (Nat.div_lt_of_lt_mul (Nat.pow_add .. ▸ hv))]
  have hlow : (v &&& (2 ^ (n + m) - 2 ^ n)) % 2 ^ n = 0 := by
    rw [Nat.and_mod_two_pow, hmask, Nat.mul_mod_right, Nat.and_zero]
  rw [← Nat.div_add_mod (v &&& (2 ^ (n + m) - 2 ^ n)) (2 ^ n), hhigh, hlow, Nat.add_zero,
    Nat.mul_eq_zero, or_iff_right hpos.ne', Nat.div_eq_zero_iff_lt hpos]

/-- Fields decode to a command exactly when they fit a row. A row's masks bound the fields by powers
of 2; the decoder's checks, opcode by opcode, set the same bounds. -/
theorem decodeFields_succeeds_iff {F : Fields} (hF : F.Fits) :
    (∃ i, decodeFields F = .ok i) ↔
      ∃ row ∈ opcodeRows, F.and (fieldsOf row.2) = fieldsOf row.1 := by
  obtain ⟨op, rd, ra, rb, z, idx⟩ := F
  obtain ⟨hop, hrd, hra, hrb, hz, hidx⟩ := hF
  simp only at hop hrd hra hrb hz hidx
  have hopMask : op &&& 255 = op := Nat.and_two_pow_sub_one_of_lt_two_pow (n := 8) hop
  have hregMask {v : Nat} (h : v < 16) : v &&& 15 = 0 ↔ v < 1 :=
    and_two_pow_sub_two_pow_eq_zero (n := 0) (k := 4) h (by decide)
  have hpolyMask {v : Nat} (h : v < 16) : v &&& 8 = 0 ↔ v < 8 :=
    and_two_pow_sub_two_pow_eq_zero (n := 3) (k := 4) h (by decide)
  have hzMask : z &&& 7 = 0 ↔ z < 1 :=
    and_two_pow_sub_two_pow_eq_zero (n := 0) (k := 3) hz (by decide)
  have hidxMask : idx &&& 511 = 0 ↔ idx < 1 :=
    and_two_pow_sub_two_pow_eq_zero (n := 0) (k := 9) hidx (by decide)
  have hidx4Mask : idx &&& 508 = 0 ↔ idx < 4 :=
    and_two_pow_sub_two_pow_eq_zero (n := 2) (k := 9) hidx (by decide)
  have hidx8Mask : idx &&& 504 = 0 ↔ idx < 8 :=
    and_two_pow_sub_two_pow_eq_zero (n := 3) (k := 9) hidx (by decide)
  simp only [opcodeRows, List.cons_append, List.nil_append, List.mem_cons, List.not_mem_nil, or_false,
    exists_eq_or_imp, ↓existsAndEq, Fields.and, fieldsOf, BitVec.ofNat_eq_ofNat, BitVec.toNat_ofNat,
    Nat.reducePow, Nat.reduceMod, Nat.reduceDiv, Nat.and_zero, Fields.mk.injEq, true_and, and_true,
    hopMask, hregMask, hpolyMask, hzMask, hidxMask, hidx4Mask, hidx8Mask, hrd, hra, hrb]
  unfold decodeFields
  split
  case h_28 => simp_all -- no row has another opcode
  all_goals
    subst_vars
    -- only the row of this opcode is left
    simp only [Nat.reduceEqDiff, false_and, or_false, false_or, true_and]
    simp only [except_bind_eq_ok, Fields.formatZ_eq_ok, Fields.formatD_eq_ok, Fields.formatDA_eq_ok,
      Fields.formatDAB_eq_ok, Fields.formatDAI_eq_ok, Fields.formatAI_eq_ok, polyReg_eq_ok,
      elementIdx_eq_ok hidx, Except.ok.injEq, Fin.exists_iff, exists_const, exists_and_left,
      ↓existsAndEq, exists_prop, exists_eq_left', and_true, true_and]
    omega

/-- Two rows that ask for different values of a bit both look at fit no word together. -/
theorem not_fitsRow_both {r u : Word32 × Word32} (h : r.1 &&& u.2 ≠ u.1 &&& r.2) (w : Word32) :
    ¬ (fitsRow w r ∧ fitsRow w u) := by
  rintro ⟨hr, hu⟩
  apply h
  rw [← hr, ← hu, BitVec.and_assoc, BitVec.and_assoc, BitVec.and_comm r.2]

/-- Settles O20: the masks read field by field for the first part; each two rows differ in the opcode
for the second. -/
theorem decodeAcceptsExactlyTheTable : Obligations.DecodeAcceptsExactlyTheTable := by
  constructor
  · intro w
    simp only [fitsRow_iff_fields]
    exact decodeFields_succeeds_iff (fieldsOf_fits w)
  · have hdiffer : opcodeRows.Pairwise fun r u => r.1 &&& u.2 ≠ u.1 &&& r.2 := by decide
    exact hdiffer.imp not_fitsRow_both

end Sys2Proof

namespace Sys2Proof.Machine

/-! ### The issue of a command word (rule R104) -/

theorem issue_of_decode {w : Word32} {i : Instr} {s : State} (hs : s.faultFree)
    (hw : decode w = .ok i) : issue w s = exec i s := by
  simp [issue, hs, hw]

/-- Settles O5: the write of `CMD` issues the word, and its issue is the command. -/
theorem stepRunsDecodedCommand : Obligations.StepRunsDecodedCommand := by
  intro s rest v i hs hw
  rw [step_writeCsr, hostWriteCsr_cmd]
  exact issue_of_decode hs hw

end Sys2Proof.Machine

/-! ## Field arithmetic (`40_field.md`)

A field command reads its sources, then writes one register: `exec_fredu` to `exec_fint` say so with
the command's word, the `_val` lemmas say what the written value is as a number, and
`fieldOp_of_missing` says that a missing source of two is a fault whatever the operation. -/

namespace Sys2Proof
open Machine

/-! ### The words of commands (rule R101) -/

/-- The word of six fields with `z` = 0. -/
theorem packFields_eq_commandWord (op rd ra rb idx : Nat) :
    packFields ⟨op, rd, ra, rb, 0, idx⟩ = commandWord op rd ra rb idx := by
  simp [packFields, commandWord]

/-- A word decodes to the well-formed command it is packed from. -/
theorem decode_commandWord {i : Instr} {op rd ra rb idx : Nat}
    (hfields : encodeFields i = ⟨op, rd, ra, rb, 0, idx⟩) (hi : i.WellFormed) :
    decode (commandWord op rd ra rb idx) = .ok i :=
  decode_eq_ok_iff.2 ⟨by rw [encode, hfields, packFields_eq_commandWord], hi⟩

/-! ### Field elements as numbers -/

/-- Reducing the mathematical `mod` of an integer again changes nothing. -/
theorem Fq.ofNat_emod_val (z : Int) : ((Fq.ofNat (z % (q : Int)).toNat).val : Int) = z % 12289 := by
  rw [Fq.ofNat_val, Int.natCast_emod, Int.toNat_of_nonneg (Int.emod_nonneg z (by decide)),
    Int.emod_emod]
  rfl

/-- A canonical representative is its own 64-bit zero extension. -/
theorem Fq.zeroExtend_toNat (u : Fq) : (BitVec.ofNat 64 u.val).toNat = u.val :=
  (BitVec.toNat_ofNat ..).trans (Nat.mod_eq_of_lt (u.isLt.trans (by decide)))

end Sys2Proof

namespace Sys2Proof.Machine

/-! ### The functions of rules R131 and R138 as numbers -/

theorem reduceUnsigned_val (v : Word64) : (reduceUnsigned v).val = v.toNat % 12289 := rfl

theorem reduceSigned_val (v : Word64) : ((reduceSigned v).val : Int) = v.toInt % 12289 :=
  Fq.ofNat_emod_val v.toInt

theorem fieldAdd_val (u v : Fq) : (fieldAdd u v).val = (u.val + v.val) % 12289 := rfl

theorem fieldSub_val (u v : Fq) :
    ((fieldSub u v).val : Int) = ((u.val : Int) - (v.val : Int)) % 12289 :=
  Fq.ofNat_emod_val (u.val - v.val)

theorem fieldMul_val (u v : Fq) : (fieldMul u v).val = (u.val * v.val) % 12289 := rfl

/-! ### What the commands do -/

theorem exec_fredu (d : FReg) (a : XReg) (s : State) :
    exec (.fredu d a) s = finish (commandWord 0x01 d a 0 0) s
      (s.readX a >>= fun v => .ok (s.setF d (reduceUnsigned v))) := by
  rw [← packFields_eq_commandWord]; rfl

theorem exec_freds (d : FReg) (a : XReg) (s : State) :
    exec (.freds d a) s = finish (commandWord 0x02 d a 0 0) s
      (s.readX a >>= fun v => .ok (s.setF d (reduceSigned v))) := by
  rw [← packFields_eq_commandWord]; rfl

/-- Two `f` registers read in order, and a result of their values written to a third. -/
def fieldOp (f : Fq → Fq → Fq) (d a b : FReg) (s : State) : Except FaultCode State :=
  s.readF a >>= fun u => s.readF b >>= fun v => .ok (s.setF d (f u v))

theorem exec_fadd (d a b : FReg) (s : State) :
    exec (.fadd d a b) s = finish (commandWord 0x03 d a b 0) s (fieldOp fieldAdd d a b s) := by
  rw [← packFields_eq_commandWord]; rfl

theorem exec_fsub (d a b : FReg) (s : State) :
    exec (.fsub d a b) s = finish (commandWord 0x04 d a b 0) s (fieldOp fieldSub d a b s) := by
  rw [← packFields_eq_commandWord]; rfl

theorem exec_fmul (d a b : FReg) (s : State) :
    exec (.fmul d a b) s = finish (commandWord 0x05 d a b 0) s (fieldOp fieldMul d a b s) := by
  rw [← packFields_eq_commandWord]; rfl

theorem exec_fint (d : XReg) (a : FReg) (s : State) :
    exec (.fint d a) s = finish (commandWord 0x06 d a 0 0) s
      (s.readF a >>= fun u => .ok (s.setX d (BitVec.ofNat 64 u.val))) := by
  rw [← packFields_eq_commandWord]; rfl

theorem fieldOp_of_values {a b : FReg} {s : State} {u v : Fq} (f : Fq → Fq → Fq) (d : FReg)
    (ha : s.f[a] = some u) (hb : s.f[b] = some v) :
    fieldOp f d a b s = .ok (s.setF d (f u v)) := by
  rw [fieldOp, readF_some ha, except_ok_bind, readF_some hb, except_ok_bind]

/-- Whichever of the two sources has no value, the fault is `F_UNINIT`. -/
theorem fieldOp_of_missing {a b : FReg} {s : State} (f : Fq → Fq → Fq) (d : FReg)
    (h : s.f[a] = none ∨ s.f[b] = none) : fieldOp f d a b s = .error .uninit := by
  unfold fieldOp
  cases ha : s.f[a] with
  | none => rw [readF_none ha, except_error_bind]
  | some u =>
    have hb : s.f[b] = none := h.resolve_left (by simp [ha])
    rw [readF_some ha, except_ok_bind, readF_none hb, except_error_bind]

/-! ### The statements -/

/-- Settles O24: the two reductions as numbers, by the equations of FREDU and FREDS. -/
theorem constructAndReduce : Obligations.ConstructAndReduce := by
  intro d a s
  refine ⟨decode_commandWord rfl rfl, decode_commandWord rfl rfl, fun v hv => ?value,
    fun hnone => ?missing⟩
  case value =>
    refine ⟨⟨_, reduceUnsigned_val v, ?unsigned⟩, _, reduceSigned_val v, ?signed⟩
    case unsigned => rw [exec_fredu, readX_some hv, except_ok_bind, finish_ok, State.setF]
    case signed => rw [exec_freds, readX_some hv, except_ok_bind, finish_ok, State.setF]
  case missing =>
    rw [exec_fredu, exec_freds, readX_none hnone, except_error_bind]
    exact ⟨rfl, rfl⟩

/-- Settles O25: the three operations as numbers, and the two cases of `fieldOp` for all three
commands. The sources are read before the write, so a destination that is a source is no case of its
own. -/
theorem fieldAddSubMul : Obligations.FieldAddSubMul := by
  intro d a b s
  rw [exec_fadd, exec_fsub, exec_fmul]
  refine ⟨decode_commandWord rfl rfl, decode_commandWord rfl rfl, decode_commandWord rfl rfl,
    fun u v ha hb => ?values, fun hnone => ?missing⟩
  case values =>
    simp only [fieldOp_of_values _ d ha hb, finish_ok]
    exact ⟨⟨_, fieldAdd_val u v, rfl⟩, ⟨_, fieldSub_val u v, rfl⟩, _, fieldMul_val u v, rfl⟩
  case missing =>
    simp only [fieldOp_of_missing _ d hnone, finish_error]
    exact ⟨rfl, rfl, rfl⟩

/-- Settles O26: a canonical representative fits 64 bits. -/
theorem fieldToInteger : Obligations.FieldToInteger := by
  intro d a s
  rw [exec_fint]
  refine ⟨decode_commandWord rfl rfl, fun u hu => ⟨_, Fq.zeroExtend_toNat u, ?value⟩,
    fun hnone => ?missing⟩
  case value => rw [readF_some hu, except_ok_bind, finish_ok, State.setX]
  case missing => rw [readF_none hnone, except_error_bind, finish_error, takeFault]

end Sys2Proof.Machine

/-! ## The ring (`41_ring.md`)

The forward transform evaluates a polynomial at the odd powers of `PSI`, so it is a Vandermonde
matrix over the integers mod q, and the inverse transform is 512^(−1) times the transpose of the
same matrix at the inverse of `PSI`. First come the facts about these matrices over any commutative
ring or integral domain, then the model's functions as such matrices, then the statements. -/

namespace Sys2Proof.Negacyclic

open Matrix

variable {K : Type*} [CommRing K] {n : ℕ} {ω ω' : K}

/-- The matrix that evaluates a polynomial of degree below `n` at the odd powers of `ω`. -/
def oddPowers (ω : K) (n : ℕ) : Matrix (Fin n) (Fin n) K := vandermonde fun k => ω ^ (2 * k.val + 1)

theorem oddPowers_mulVec (ω : K) (c : Fin n → K) (k : Fin n) :
    (oddPowers ω n *ᵥ c) k = ∑ i : Fin n, (ω ^ (2 * k.val + 1)) ^ i.val * c i := rfl

theorem oddPowers_transpose_mulVec (ω : K) (e : Fin n → K) (i : Fin n) :
    ((oddPowers ω n)ᵀ *ᵥ e) i = ∑ k : Fin n, (ω ^ (2 * k.val + 1)) ^ i.val * e k := rfl

/-- A sum of odd powers of `z` with `z^(2n)` = 1 is 0, unless `z²` = 1. -/
theorem sum_odd_pow_eq_zero [IsDomain K] {z : K} (hz : z ^ (2 * n) = 1) (hne : z ^ 2 ≠ 1) :
    ∑ k : Fin n, z ^ (2 * k.val + 1) = 0 := by
  have hgeom : (∑ k ∈ Finset.range n, (z ^ 2) ^ k) * (z ^ 2 - 1) = 0 := by
    rw [geom_sum_mul, ← pow_mul, hz, sub_self]
  have hsum := (mul_eq_zero.1 hgeom).resolve_right (sub_ne_zero.2 hne)
  rw [← Fin.sum_univ_eq_sum_range] at hsum
  simp only [pow_add, pow_mul, pow_one, ← Finset.sum_mul, hsum, zero_mul]

/-- The orthogonality of the odd powers of a root of order `2n` and those of its inverse. -/
theorem oddPowers_orthogonal [IsDomain K] (hω : IsPrimitiveRoot ω (2 * n)) (hinv : ω * ω' = 1) :
    (oddPowers ω' n)ᵀ * oddPowers ω n = (n : K) • (1 : Matrix (Fin n) (Fin n) K) := by
  ext i j
  have hω' : ω' ^ (2 * n) = 1 := by
    calc ω' ^ (2 * n) = ω ^ (2 * n) * ω' ^ (2 * n) := by rw [hω.pow_eq_one, one_mul]
      _ = 1 := by rw [← mul_pow, hinv, one_pow]
  have hentry : ((oddPowers ω' n)ᵀ * oddPowers ω n) i j =
      ∑ k : Fin n, (ω' ^ i.val * ω ^ j.val) ^ (2 * k.val + 1) := by
    simp only [Matrix.mul_apply, transpose_apply, oddPowers, vandermonde_apply, mul_pow, ← pow_mul,
      Nat.mul_comm]
  rw [hentry, Matrix.smul_apply, one_apply]
  split
  case isTrue hij =>
    rw [hij, ← mul_pow, mul_comm ω', hinv]
    simp
  case isFalse hij =>
    rw [smul_zero]
    refine sum_odd_pow_eq_zero ?root ?distinct
    case root =>
      rw [mul_pow, pow_right_comm, hω', pow_right_comm, hω.pow_eq_one, one_pow, one_pow, one_mul]
    case distinct =>
      intro hone
      have hpow : ω ^ (2 * j.val) = ω ^ (2 * i.val) := by
        calc ω ^ (2 * j.val) = (ω * ω') ^ (2 * i.val) * ω ^ (2 * j.val) := by rw [hinv]; ring
          _ = ω ^ (2 * i.val) * (ω' ^ i.val * ω ^ j.val) ^ 2 := by ring
          _ = ω ^ (2 * i.val) := by rw [hone, mul_one]
      have := hω.pow_inj (by omega) (by omega) hpow
      exact hij (Fin.ext (by omega))

/-- Hence the two matrices are inverse to each other, up to the factor `n`. -/
theorem oddPowers_left_inverse [IsDomain K] {c : K} (hω : IsPrimitiveRoot ω (2 * n))
    (hinv : ω * ω' = 1) (hc : c * n = 1) : c • (oddPowers ω' n)ᵀ * oddPowers ω n = 1 := by
  rw [smul_mul, oddPowers_orthogonal hω hinv, smul_smul, hc, one_smul]

/-- The transpose at the inverse root undoes the evaluation. -/
theorem smul_transpose_mulVec_mulVec [IsDomain K] {c : K} (hω : IsPrimitiveRoot ω (2 * n))
    (hinv : ω * ω' = 1) (hc : c * n = 1) (f : Fin n → K) :
    c • ((oddPowers ω' n)ᵀ *ᵥ (oddPowers ω n *ᵥ f)) = f := by
  rw [← smul_mulVec, mulVec_mulVec, oddPowers_left_inverse hω hinv hc, one_mulVec]

/-- The evaluation undoes the transpose at the inverse root: a left inverse of a square matrix is a
right inverse. -/
theorem mulVec_smul_transpose_mulVec [IsDomain K] {c : K} (hω : IsPrimitiveRoot ω (2 * n))
    (hinv : ω * ω' = 1) (hc : c * n = 1) (e : Fin n → K) :
    oddPowers ω n *ᵥ (c • ((oddPowers ω' n)ᵀ *ᵥ e)) = e := by
  rw [← smul_mulVec, mulVec_mulVec, mul_eq_one_comm.1 (oddPowers_left_inverse hω hinv hc),
    one_mulVec]

/-- Half the order of a root of order `2n` is where its power is −1. -/
theorem pow_half_eq_neg_one [IsDomain K] (hn : 0 < n) (hω : IsPrimitiveRoot ω (2 * n)) :
    ω ^ n = -1 := by
  have hsq : (ω ^ n) ^ 2 = 1 := by rw [← pow_mul, Nat.mul_comm, hω.pow_eq_one]
  exact (sq_eq_one_iff.1 hsq).resolve_left (hω.pow_ne_one_of_pos_of_lt hn.ne' (by omega))

/-- The term `c·X^(i+j)` of a product, reduced by `X^n` = −1 to a coefficient `k` below `n`. -/
def wrapped (n i j : ℕ) (c : K) (k : ℕ) : K :=
  if i + j = k then c else if i + j = k + n then -c else 0

/-- At a point with `r^n` = −1 the reduced term has the value of the term. -/
theorem sum_pow_mul_wrapped {r : K} (hr : r ^ n = -1) (i j : Fin n) (c : K) :
    ∑ k : Fin n, r ^ k.val * wrapped n i j c k = r ^ (i.val + j.val) * c := by
  by_cases h : i.val + j.val < n
  · have other : ∀ k : Fin n, k ≠ ⟨i.val + j.val, h⟩ → r ^ k.val * wrapped n i j c k = 0 := by
      intro k hk
      have hne : i.val + j.val ≠ k.val := fun h => hk (Fin.ext h.symm)
      rw [wrapped, if_neg hne, if_neg (by omega), mul_zero]
    rw [Fintype.sum_eq_single _ other, wrapped, if_pos rfl]
  · obtain ⟨m, hm⟩ := Nat.exists_eq_add_of_le (Nat.le_of_not_lt h)
    have hmn : m < n := by omega
    have other : ∀ k : Fin n, k ≠ ⟨m, hmn⟩ → r ^ k.val * wrapped n i j c k = 0 := by
      intro k hk
      have hne : k.val ≠ m := fun h => hk (Fin.ext h)
      rw [wrapped, if_neg (by omega), if_neg (by omega), mul_zero]
    have hlow : ¬ n + m = m := by omega
    rw [Fintype.sum_eq_single _ other, wrapped, hm, if_neg hlow, if_pos (Nat.add_comm n m), pow_add,
      hr, neg_one_mul, mul_neg, neg_mul]

/-- The product of two polynomials mod `X^n` + 1. -/
def product (a b : Fin n → K) (k : Fin n) : K :=
  ∑ i : Fin n, ∑ j : Fin n, wrapped n i j (a i * b j) k

/-- Evaluation at the odd powers of a root with `ω^n` = −1 is multiplicative. -/
theorem oddPowers_mulVec_product (hω : ω ^ n = -1) (a b : Fin n → K) :
    oddPowers ω n *ᵥ product a b = (oddPowers ω n *ᵥ a) * (oddPowers ω n *ᵥ b) := by
  ext l
  have hr : (ω ^ (2 * l.val + 1)) ^ n = -1 := by
    rw [pow_right_comm, hω, Odd.neg_one_pow ⟨l.val, rfl⟩]
  simp only [Pi.mul_apply, oddPowers_mulVec]
  generalize ω ^ (2 * l.val + 1) = r at hr
  calc ∑ k : Fin n, r ^ k.val * product a b k
      = ∑ i : Fin n, ∑ j : Fin n, ∑ k : Fin n, r ^ k.val * wrapped n i j (a i * b j) k := by
        simp only [product, Finset.mul_sum]
        rw [Finset.sum_comm]
        exact Finset.sum_congr rfl fun i _ => Finset.sum_comm
    _ = ∑ i : Fin n, ∑ j : Fin n, (r ^ i.val * a i) * (r ^ j.val * b j) := by
        simp only [sum_pow_mul_wrapped hr, pow_add]
        exact Finset.sum_congr rfl fun i _ => Finset.sum_congr rfl fun j _ => by ring
    _ = (∑ i : Fin n, r ^ i.val * a i) * ∑ j : Fin n, r ^ j.val * b j :=
        (Finset.sum_mul_sum ..).symm

end Sys2Proof.Negacyclic

namespace Sys2Proof

/-! ### The integers mod q -/

theorem q_prime : Nat.Prime q := by norm_num

theorem isDomain_zmod_q : IsDomain (ZMod q) :=
  have := Fact.mk q_prime
  inferInstance

theorem toList_eq_ofFn {α : Type} {n : Nat} (v : Vector α n) :
    v.toList = List.ofFn fun i : Fin n => v[i] := by
  apply List.ext_getElem <;> simp

/-- The canonical representative is the value of its residue class. -/
theorem Fq.val_eq_mod_of_cast_eq {u : Fq} {m : Nat} (h : (u.val : ZMod q) = m) :
    u.val = m % 12289 :=
  (Nat.mod_eq_of_lt u.isLt).symm.trans ((ZMod.natCast_eq_natCast_iff' _ _ _).1 h)

theorem natCast_eq_one_iff (m : Nat) : (m : ZMod q) = 1 ↔ m % q = 1 := by
  rw [← Nat.cast_one, ZMod.natCast_eq_natCast_iff']
  rfl

theorem Fq.cast_ofNat (m : Nat) : ((Fq.ofNat m).val : ZMod q) = m := ZMod.natCast_mod m q

/-- An element that is given as an integer mod q stands for that integer. -/
theorem Fq.cast_of_val_eq_emod {u : Fq} {z : Int} (h : (u.val : Int) = z % 12289) :
    (u.val : ZMod q) = z := by
  rw [← ZMod.intCast_mod z q, ← Int.cast_natCast, h]
  rfl

/-- A configuration with another legal root. -/
def Cfg.withPsi (g : Cfg) (psi : Fq) (h1 : psi.val ^ 1024 % q = 1)
    (h2 : psi.val ^ 512 % q ≠ 1) : Cfg :=
  { g with psi := psi, psi_pow_1024 := h1, psi_pow_512 := h2 }

end Sys2Proof

namespace Sys2Proof.Machine

open Matrix Negacyclic

/-- The entries of a polynomial as residue classes mod q. -/
def residues (f : Poly) (i : Fin ringDegree) : ZMod q := (f[i].val : ZMod q)

theorem residues_injective : Function.Injective residues := by
  intro a b h
  ext i hi
  have hval := Fq.val_eq_mod_of_cast_eq (congrFun h ⟨i, hi⟩)
  exact hval.trans (Nat.mod_eq_of_lt b[i].isLt)

/-! ### `PSI` and its inverse (rule R153) -/

/-- `PSI` as a residue class. -/
def psiResidue (g : Cfg) : ZMod q := (g.psi.val : ZMod q)

/-- The order of `PSI` is exactly 1024, whatever the configuration. -/
theorem psiResidue_isPrimitiveRoot (g : Cfg) :
    IsPrimitiveRoot (psiResidue g) (2 * ringDegree) := by
  have hpow (k : Nat) : psiResidue g ^ k = 1 ↔ g.psi.val ^ k % q = 1 := by
    rw [psiResidue, ← Nat.cast_pow, natCast_eq_one_iff]
  have horder : orderOf (psiResidue g) = 2 ^ (9 + 1) :=
    orderOf_eq_prime_pow ((hpow 512).not.2 g.psi_pow_512) ((hpow 1024).2 g.psi_pow_1024)
  exact IsPrimitiveRoot.iff_orderOf.2 horder

theorem psiResidue_pow_ringDegree (g : Cfg) : psiResidue g ^ ringDegree = -1 :=
  have := isDomain_zmod_q
  pow_half_eq_neg_one (by decide) (psiResidue_isPrimitiveRoot g)

theorem psiResidue_mul_psiInverse (g : Cfg) : psiResidue g * (psiInverse g : ZMod q) = 1 := by
  rw [psiInverse, ZMod.natCast_mod, Nat.cast_pow, ← psiResidue, ← pow_succ']
  exact (psiResidue_isPrimitiveRoot g).pow_eq_one

/-- `NINV` is the inverse of 512 (rule R155). -/
theorem nInverse_mul_ringDegree : (nInverse : ZMod q) * (ringDegree : ZMod q) = 1 := by
  rw [← Nat.cast_mul, natCast_eq_one_iff]
  rfl

/-! ### The functions of the ring unit as matrices -/

/-- Horner's rule gives the value of the polynomial. -/
theorem polyAt_ofFn (r : Nat) {n : Nat} (c : Fin n → Fq) :
    (polyAt r (List.ofFn c) : ZMod q) =
      ∑ i : Fin n, (r : ZMod q) ^ i.val * ((c i).val : ZMod q) := by
  induction n with
  | zero => simp [polyAt]
  | succ n ih =>
    rw [List.ofFn_succ, polyAt, ZMod.natCast_mod, Nat.cast_add, Nat.cast_mul, ih, Fin.sum_univ_succ,
      Finset.mul_sum]
    simp only [Fin.val_zero, pow_zero, one_mul, Fin.val_succ, pow_succ', mul_assoc]

theorem polyAt_toList (r : Nat) (f : Poly) :
    (polyAt r f.toList : ZMod q) = ∑ i : Fin ringDegree, (r : ZMod q) ^ i.val * residues f i := by
  rw [toList_eq_ofFn, polyAt_ofFn]
  rfl

/-- The sum over the odd powers of `y` that rule R155 writes is `y` times a value at `y²`. -/
theorem mul_polyAt_sq (y : Nat) (f : Poly) :
    ((y * polyAt (y * y % q) f.toList : Nat) : ZMod q) =
      ∑ k : Fin ringDegree, (y : ZMod q) ^ (2 * k.val + 1) * residues f k := by
  rw [Nat.cast_mul, polyAt_toList, ZMod.natCast_mod, Nat.cast_mul, Finset.mul_sum]
  exact Finset.sum_congr rfl fun k _ => by ring

/-- Rule R154: the forward transform is the evaluation at the odd powers of `PSI`. -/
theorem residues_nttOf (g : Cfg) (f : Poly) :
    residues (nttOf g f) = oddPowers (psiResidue g) ringDegree *ᵥ residues f := by
  ext k
  rw [residues, nttOf, tabulate_getElem_fin, Fq.cast_ofNat, polyAt_toList, ZMod.natCast_mod,
    Nat.cast_pow, oddPowers_mulVec]
  rfl

/-- Rule R155: the inverse transform is `NINV` times the transposed evaluation at the odd powers of
the inverse of `PSI`. -/
theorem residues_inttOf (g : Cfg) (e : Poly) :
    residues (inttOf g e) =
      (nInverse : ZMod q) • ((oddPowers (psiInverse g : ZMod q) ringDegree)ᵀ *ᵥ residues e) := by
  ext i
  rw [residues, inttOf, tabulate_getElem_fin, Fq.cast_ofNat, Nat.cast_mul, mul_polyAt_sq]
  simp only [ZMod.natCast_mod, Nat.cast_pow, pow_right_comm _ i.val]
  rfl

theorem residues_hadamardOf (a b : Poly) :
    residues (hadamardOf a b) = residues a * residues b := by
  ext k
  rw [residues, hadamardOf, tabulate_getElem_fin, fieldMul, Fq.cast_ofNat, Nat.cast_mul]
  rfl

theorem residues_pointwiseSub (a b : Poly) :
    residues (pointwiseSub a b) = residues a - residues b := by
  ext k
  rw [residues, pointwiseSub, tabulate_getElem_fin, Fq.cast_of_val_eq_emod (fieldSub_val a[k] b[k]),
    Int.cast_sub, Int.cast_natCast, Int.cast_natCast]
  rfl

theorem ringProduct_val (a b : Poly) (k : Fin ringDegree) :
    ((ringProduct a b)[k].val : Int) = ringProductCoeff a b k.val % 12289 := by
  rw [ringProduct, tabulate_getElem_fin]
  exact Fq.ofNat_emod_val _

/-- Rule R17: the ring product is the product mod `X^512` + 1. -/
theorem residues_ringProduct (a b : Poly) :
    residues (ringProduct a b) = product (residues a) (residues b) := by
  ext k
  rw [residues, Fq.cast_of_val_eq_emod (ringProduct_val a b k), ringProductCoeff, product]
  push_cast [wrapped, residues]
  rfl

/-! ### The laws of the transforms (rule R165) -/

/-- Settles O36: the odd powers of `PSI` and of its inverse are orthogonal, so the two matrices are
inverse on one side, and square matrices that are inverse on one side are so on both. -/
theorem transformsAreInverse : Obligations.TransformsAreInverse := by
  intro g poly
  have := isDomain_zmod_q
  have hω := psiResidue_isPrimitiveRoot g
  have hinv := psiResidue_mul_psiInverse g
  have hn := nInverse_mul_ringDegree
  constructor <;> apply residues_injective
  · rw [residues_inttOf, residues_nttOf, smul_transpose_mulVec_mulVec hω hinv hn]
  · rw [residues_nttOf, residues_inttOf, mulVec_smul_transpose_mulVec hω hinv hn]

/-- Settles O37: `PSI^512` = −1, so evaluation at its odd powers respects the reduction by
`X^512` = −1. -/
theorem transformIsMultiplicative : Obligations.TransformIsMultiplicative := by
  intro g a b
  apply residues_injective
  rw [residues_nttOf, residues_ringProduct, oddPowers_mulVec_product (psiResidue_pow_ringDegree g),
    residues_hadamardOf, residues_nttOf, residues_nttOf]

theorem nttOf_pointwiseSub (g : Cfg) (a b : Poly) :
    nttOf g (pointwiseSub a b) = pointwiseSub (nttOf g a) (nttOf g b) := by
  apply residues_injective
  rw [residues_nttOf, residues_pointwiseSub, mulVec_sub, residues_pointwiseSub, residues_nttOf,
    residues_nttOf]

/-- Rule R243: the polynomial recovered is `cp − s2·h` in the ring, in which `PSI` does not
occur. -/
theorem recoverS1_eq_ringDifference (g : Cfg) (cp s2 h : Poly) :
    recoverS1 g cp s2 h = pointwiseSub cp (ringProduct s2 h) := by
  rw [recoverS1, ← transformIsMultiplicative, ← nttOf_pointwiseSub]
  exact (transformsAreInverse g _).1

section
variable (g : Cfg) (psi : Fq) (h1 : psi.val ^ 1024 % q = 1) (h2 : psi.val ^ 512 % q ≠ 1)

theorem squeezeRounds_withPsi (n : Nat) (st : g.Sponge) :
    squeezeRounds (g.withPsi psi h1 h2) n st = squeezeRounds g n st := by
  induction n generalizing st with
  | zero => rfl
  | succ n ih => exact congrArg (squeezeRate g (g.permute st) ++ ·) (ih (g.permute st))

theorem hashToPoint_withPsi (message : Vector Word64 4) (nonce : Vector Word64 8) :
    hashToPoint (g.withPsi psi h1 h2) message nonce = hashToPoint g message nonce :=
  congrArg Poly.ofList (squeezeRounds_withPsi g psi h1 h2 64 _)
end

/-- Settles O57: `PSI` enters the verdict by the recovered polynomial alone, which is the ring
difference for every legal `PSI`. -/
theorem verdictDoesNotDependOnPsi : Obligations.VerdictDoesNotDependOnPsi := by
  intro g psi h1 h2 h s2 sgb message commitment
  change verifyFn (g.withPsi psi h1 h2) h s2 sgb message commitment = _
  simp only [verifyFn, recoverS1_eq_ringDifference, hashToPoint_withPsi]
  rfl

end Sys2Proof.Machine

namespace Sys2Proof.Machine

/-! ### Commands that check one or two polynomial registers -/

section
variable {s : State} {a b : PReg} {w : Word32}

/-- What a command makes of one operand of a required form. -/
theorem finish_readForm_held {form : Form} {u : Poly} (h : s.p[a] = .held form u)
    (k : Poly → Except FaultCode State) :
    finish w s (s.readForm form a >>= k) = finish w s (k u) := by
  rw [readForm_held h, except_ok_bind]

theorem finish_readForm_empty (form : Form) (h : s.p[a] = .empty)
    (k : Poly → Except FaultCode State) :
    finish w s (s.readForm form a >>= k) = .next { s with fault := some .uninit, fcmd := w } := by
  rw [readForm_empty h, except_error_bind, finish_error, takeFault]

theorem finish_readForm_other {form other : Form} {u : Poly} (h : s.p[a] = .held other u)
    (hne : other ≠ form) (k : Poly → Except FaultCode State) :
    finish w s (s.readForm form a >>= k) = .next { s with fault := some .form, fcmd := w } := by
  rw [readForm_other h hne, except_error_bind, finish_error, takeFault]

/-- What a command makes of two operands of one form. -/
theorem finish_readPair_held {form : Form} {u v : Poly} (ha : s.p[a] = .held form u)
    (hb : s.p[b] = .held form v) (k : Form × Poly × Poly → Except FaultCode State) :
    finish w s (s.readPair a b >>= k) = finish w s (k (form, u, v)) := by
  rw [readPair_held ha hb, except_ok_bind]

theorem finish_readPair_empty (h : s.p[a] = .empty ∨ s.p[b] = .empty)
    (k : Form × Poly × Poly → Except FaultCode State) :
    finish w s (s.readPair a b >>= k) = .next { s with fault := some .uninit, fcmd := w } := by
  rw [readPair_empty h, except_error_bind, finish_error, takeFault]

theorem finish_readPair_mixed {f1 f2 : Form} {u v : Poly} (hne : f1 ≠ f2)
    (ha : s.p[a] = .held f1 u) (hb : s.p[b] = .held f2 v)
    (k : Form × Poly × Poly → Except FaultCode State) :
    finish w s (s.readPair a b >>= k) = .next { s with fault := some .form, fcmd := w } := by
  rw [readPair_mixed ha hb hne, except_error_bind, finish_error, takeFault]

end

/-! ### What the commands do -/

theorem exec_pzero (d : PReg) (s : State) :
    exec (.pzero d) s = .next (s.setP d .coef Poly.zero) := rfl

theorem exec_pset (d : PReg) (a : FReg) (k : Idx) (s : State) :
    exec (.pset d a k) s = finish (commandWord 0x11 d a 0 k) s
      (s.readForm .coef d >>= fun u => s.readF a >>= fun v =>
        .ok (s.setP d .coef (u.set k.val v k.isLt))) := by
  rw [← packFields_eq_commandWord]; rfl

theorem exec_pget (d : FReg) (a : PReg) (k : Idx) (s : State) :
    exec (.pget d a k) s = finish (commandWord 0x12 d a 0 k) s
      (s.readP a >>= fun r => .ok (s.setF d r.2[k])) := by
  rw [← packFields_eq_commandWord]; rfl

theorem exec_ntt (d a : PReg) (s : State) :
    exec (.ntt d a) s = finish (commandWord 0x13 d a 0 0) s
      (s.readForm .coef a >>= fun u => .ok (s.setP d .eval (nttOf Config.cfg u))) := by
  rw [← packFields_eq_commandWord]; rfl

theorem exec_intt (d a : PReg) (s : State) :
    exec (.intt d a) s = finish (commandWord 0x14 d a 0 0) s
      (s.readForm .eval a >>= fun u => .ok (s.setP d .coef (inttOf Config.cfg u))) := by
  rw [← packFields_eq_commandWord]; rfl

theorem exec_hadam (d a b : PReg) (s : State) :
    exec (.hadam d a b) s = finish (commandWord 0x15 d a b 0) s
      (s.readForm .eval a >>= fun u => s.readForm .eval b >>= fun v =>
        .ok (s.setP d .eval (hadamardOf u v))) := by
  rw [← packFields_eq_commandWord]; rfl

theorem exec_psub (d a b : PReg) (s : State) :
    exec (.psub d a b) s = finish (commandWord 0x16 d a b 0) s
      (s.readPair a b >>= fun r => .ok (s.setP d r.1 (pointwiseSub r.2.1 r.2.2))) := by
  rw [← packFields_eq_commandWord]; rfl

theorem exec_normsq (d : XReg) (a : PReg) (s : State) :
    exec (.normsq d a) s = finish (commandWord 0x17 d a 0 0) s
      (s.readForm .coef a >>= fun u => .ok (s.setX d (BitVec.ofNat 64 (normSquared u)))) := by
  rw [← packFields_eq_commandWord]; rfl

theorem exec_peq (d : XReg) (a b : PReg) (s : State) :
    exec (.peq d a b) s = finish (commandWord 0x18 d a b 0) s
      (s.readPair a b >>= fun r =>
        .ok (s.setX d (if r.2.1.toList = r.2.2.toList then 1 else 0))) := by
  rw [← packFields_eq_commandWord]; rfl

/-! ### The values the commands write -/

/-- Entry `k` of the transform is the sum of rule R154. -/
theorem nttOf_val (g : Cfg) (f : Poly) (k : Fin 512) :
    (nttOf g f)[k].val =
      (∑ i : Fin 512, f[i].val * g.psi.val ^ ((2 * k.val + 1) * i.val)) % 12289 := by
  apply Fq.val_eq_mod_of_cast_eq
  have h := congrFun (residues_nttOf g f) k
  rw [Negacyclic.oddPowers_mulVec] at h
  push_cast [pow_mul]
  exact h.trans (Finset.sum_congr rfl fun i _ => mul_comm _ _)

/-- Entry `i` of the inverse transform is the sum of rule R155, whichever number stands for the
inverse of `PSI`. -/
theorem inttOf_val (g : Cfg) (e : Poly) {pinv : Nat} (hinv : g.psi.val * pinv % 12289 = 1)
    (i : Fin 512) :
    (inttOf g e)[i].val =
      (12265 * ∑ k : Fin 512, e[k].val * pinv ^ ((2 * k.val + 1) * i.val)) % 12289 := by
  have hcast : psiResidue g * (pinv : ZMod q) = 1 := by
    rw [psiResidue, ← Nat.cast_mul, natCast_eq_one_iff]
    exact hinv
  have hsame : (psiInverse g : ZMod q) = pinv :=
    left_inv_eq_right_inv ((mul_comm _ _).trans (psiResidue_mul_psiInverse g)) hcast
  apply Fq.val_eq_mod_of_cast_eq
  have h := congrFun (residues_inttOf g e) i
  rw [Pi.smul_apply, Negacyclic.oddPowers_transpose_mulVec, hsame, smul_eq_mul] at h
  push_cast [pow_mul]
  exact h.trans (congrArg _ (Finset.sum_congr rfl fun k _ => mul_comm _ _))

/-- Rule R151: a centered representative lies between −6144 and 6144. -/
theorem center_bounds (v : Fq) : -6144 ≤ center v ∧ center v ≤ 6144 := by
  have hlt : v.val < 12289 := v.isLt
  unfold center
  split <;> omega

/-- Rule R152: the norm is the exact sum of the squares. -/
theorem normSquared_eq_sum (f : Poly) :
    (normSquared f : Int) = ∑ i : Fin ringDegree, center f[i] * center f[i] := by
  rw [normSquared, toList_eq_ofFn, List.map_ofFn, List.sum_ofFn, Nat.cast_sum]
  exact Finset.sum_congr rfl fun i _ => Int.toNat_of_nonneg (mul_self_nonneg _)

theorem normSquared_le (f : Poly) : normSquared f ≤ 19327352832 := by
  have hsum : (normSquared f : Int) ≤ 19327352832 := by
    calc (normSquared f : Int) = ∑ i : Fin ringDegree, center f[i] ^ 2 := by
          simp only [normSquared_eq_sum, sq]
      _ ≤ ∑ _i : Fin ringDegree, 6144 ^ 2 := Finset.sum_le_sum fun i _ =>
          sq_le_sq' (center_bounds f[i]).1 (center_bounds f[i]).2
      _ = 19327352832 := by
          rw [Finset.sum_const, Finset.card_univ, Fintype.card_fin]
          norm_num
  exact_mod_cast hsum

/-- The norm fits the 64-bit register (rule R166). -/
theorem normSquared_toNat (f : Poly) :
    (BitVec.ofNat 64 (normSquared f)).toNat = normSquared f :=
  (BitVec.toNat_ofNat ..).trans (Nat.mod_eq_of_lt ((normSquared_le f).trans_lt (by decide)))

/-! ### The commands' statements -/

/-- Settles O27: PZERO has no check. -/
theorem zeroPolynomial : Obligations.ZeroPolynomial := by
  intro d s
  exact ⟨decode_commandWord rfl rfl, Poly.zero, fun k => Poly.zero_getElem k k.isLt, exec_pzero d s⟩

/-- Settles O28: the form check comes before the read of the field register. -/
theorem setOneCoefficient : Obligations.SetOneCoefficient := by
  intro d a k s
  rw [exec_pset]
  refine ⟨decode_commandWord rfl rfl,
    fun f u hd ha => ⟨f.set k.val u k.isLt, ?same, ?frame, ?value⟩,
    fun hd => finish_readForm_empty .coef hd _, fun f hd => finish_readForm_other hd (by decide) _,
    fun f hd ha => ?missing⟩
  case same => exact Vector.getElem_set_self k.isLt
  case frame =>
    intro j hj
    exact Vector.getElem_set_ne k.isLt j.isLt fun h => hj (Fin.ext h.symm)
  case value => rw [finish_readForm_held hd, readF_some ha, except_ok_bind, finish_ok, State.setP]
  case missing =>
    rw [finish_readForm_held hd, readF_none ha, except_error_bind, finish_error, takeFault]

/-- Settles O29: PGET reads either form. -/
theorem getOneEntry : Obligations.GetOneEntry := by
  intro d a k s
  rw [exec_pget]
  refine ⟨decode_commandWord rfl rfl, fun form f ha => ?value, fun ha => ?missing⟩
  case value => rw [readP_held ha, except_ok_bind, finish_ok, State.setF]
  case missing => rw [readP_empty ha, except_error_bind, finish_error, takeFault]

/-- Settles O30: the machine's transform entry by entry, and the checks of its operand. -/
theorem forwardTransform : Obligations.ForwardTransform := by
  intro d a s
  rw [exec_ntt]
  refine ⟨decode_commandWord rfl rfl, fun f ha => ⟨_, nttOf_val Config.cfg f, ?value⟩,
    fun ha => finish_readForm_empty .coef ha _, fun f ha => finish_readForm_other ha (by decide) _⟩
  rw [finish_readForm_held ha, finish_ok, State.setP]

/-- Settles O31: the machine's inverse transform entry by entry, and the checks of its operand. -/
theorem inverseTransform : Obligations.InverseTransform := by
  intro d a s pinv hinv
  rw [exec_intt]
  refine ⟨decode_commandWord rfl rfl, fun e ha => ⟨_, inttOf_val Config.cfg e hinv, ?value⟩,
    fun ha => finish_readForm_empty .eval ha _, fun e ha => finish_readForm_other ha (by decide) _⟩
  rw [finish_readForm_held ha, finish_ok, State.setP]

/-- Settles O32: the checks of the second operand are reached when those of the first pass. -/
theorem pointwiseProduct : Obligations.PointwiseProduct := by
  intro d a b s
  rw [exec_hadam]
  refine ⟨decode_commandWord rfl rfl, fun u v ha hb => ⟨hadamardOf u v, ?entries, ?value⟩,
    fun ha => finish_readForm_empty .eval ha _, fun u ha => finish_readForm_other ha (by decide) _,
    fun u ha hb => ?missing, fun u v ha hb => ?form⟩
  case entries =>
    intro k
    rw [hadamardOf, tabulate_getElem_fin, fieldMul_val]
  case value => rw [finish_readForm_held ha, finish_readForm_held hb, finish_ok, State.setP]
  case missing => rw [finish_readForm_held ha, finish_readForm_empty .eval hb]
  case form => rw [finish_readForm_held ha, finish_readForm_other hb (by decide)]

/-- Settles O33: the lane-wise difference as a number, and the checks of the pair. -/
theorem pointwiseDifference : Obligations.PointwiseDifference := by
  intro d a b s
  rw [exec_psub]
  refine ⟨decode_commandWord rfl rfl, fun form u v ha hb => ⟨pointwiseSub u v, ?entries, ?value⟩,
    fun hnone => finish_readPair_empty hnone _,
    fun f1 f2 u v hne ha hb => finish_readPair_mixed hne ha hb _⟩
  case entries =>
    intro k
    rw [pointwiseSub, tabulate_getElem_fin, fieldSub_val]
  case value => rw [finish_readPair_held ha hb, finish_ok, State.setP]

/-- Settles O34: the norm is exact because it fits 64 bits. -/
theorem squaredCenteredNorm : Obligations.SquaredCenteredNorm := by
  intro d a s
  rw [exec_normsq]
  refine ⟨decode_commandWord rfl rfl,
    fun f ha => ⟨BitVec.ofNat 64 (normSquared f), ?sum, ?bound, ?value⟩,
    fun ha => finish_readForm_empty .coef ha _, fun f ha => finish_readForm_other ha (by decide) _⟩
  case sum =>
    rw [normSquared_toNat, normSquared_eq_sum]
    exact Finset.sum_congr rfl fun i _ => (sq (center f[i])).symm
  case bound => exact (normSquared_toNat f).trans_le (normSquared_le f)
  case value => rw [finish_readForm_held ha, finish_ok, State.setX]

/-- Settles O35: two polynomials are the same list exactly when they agree at every entry. -/
theorem polynomialEquality : Obligations.PolynomialEquality := by
  intro d a b s
  rw [exec_peq]
  refine ⟨decode_commandWord rfl rfl, fun form u v ha hb => ?value,
    fun hnone => finish_readPair_empty hnone _,
    fun f1 f2 u v hne ha hb => finish_readPair_mixed hne ha hb _⟩
  rw [finish_readPair_held ha hb, finish_ok, State.setX]
  constructor
  · intro hall
    have heq : u = v := Vector.ext fun i hi => hall ⟨i, hi⟩
    rw [if_pos (congrArg Vector.toList heq)]
  · rintro ⟨k, hk⟩
    have hne : u.toList ≠ v.toList := fun h => hk (by rw [Vector.toList_inj.1 h])
    rw [if_neg hne]

end Sys2Proof.Machine

/-! ## The codec (`42_codec.md`)

Both decoders read a bit string from the front. First come the bit strings of byte sequences:
`valueBits` undoes `bitsValue`, and a bit string of 8·n bits is that of exactly one sequence of n
bytes. Then each decoder is inverted: what it accepts is the encoding of what it answers
(`packCoeffs`, `coeffCode`), so nothing else is accepted with that answer. The decoder by bit
position is run alongside: where it stands at `pos`, the machine's decoder holds the bits from `pos`
on. -/

namespace Sys2Proof.Machine

/-! ### Bit strings (rule R13) -/

theorem foldl_bits (v : Nat) (bs : List Bool) :
    bs.foldl (fun v b => 2 * v + b.toNat) v = v * 2 ^ bs.length + bitsValue bs := by
  induction bs generalizing v with
  | nil => simp [bitsValue]
  | cons b bs ih =>
    rw [bitsValue, List.foldl_cons, List.foldl_cons, ih, ih (2 * 0 + b.toNat), List.length_cons]
    ring

@[simp] theorem bitsValue_nil : bitsValue [] = 0 := rfl

theorem bitsValue_cons (b : Bool) (bs : List Bool) :
    bitsValue (b :: bs) = b.toNat * 2 ^ bs.length + bitsValue bs := by
  rw [bitsValue, List.foldl_cons, foldl_bits, Nat.mul_zero, Nat.zero_add]

theorem bitsValue_lt (bs : List Bool) : bitsValue bs < 2 ^ bs.length := by
  induction bs with
  | nil => simp
  | cons b bs ih =>
    rw [bitsValue_cons, List.length_cons, pow_succ]
    cases b <;> simp <;> omega

/-- Bit strings of one length are told apart by their values. -/
theorem eq_of_bitsValue_eq {as bs : List Bool} (hlen : as.length = bs.length)
    (hval : bitsValue as = bitsValue bs) : as = bs := by
  induction as generalizing bs with
  | nil => exact (List.length_eq_zero_iff.1 hlen.symm).symm
  | cons a as ih =>
    obtain _ | ⟨b, bs⟩ := bs
    · simp at hlen
    · have htail : as.length = bs.length := by simpa using hlen
      have ha := bitsValue_lt as
      have hb := bitsValue_lt bs
      rw [bitsValue_cons, bitsValue_cons, htail] at hval
      rw [htail] at ha
      have hab : a = b := by cases a <;> cases b <;> simp at hval ⊢ <;> omega
      subst hab
      rw [ih htail (by omega)]

/-- The `n` low bits of a number, most significant first. -/
def valueBits (n v : Nat) : List Bool := (List.range n).map fun j => v.testBit (n - 1 - j)

@[simp] theorem valueBits_length (n v : Nat) : (valueBits n v).length = n := by simp [valueBits]

theorem valueBits_succ (n v : Nat) : valueBits (n + 1) v = v.testBit n :: valueBits n v := by
  rw [valueBits, List.range_succ_eq_map, List.map_cons, List.map_map, valueBits]
  congr 1
  exact List.map_congr_left fun j _ => congrArg v.testBit (by simp; omega)

@[simp] theorem bitsValue_valueBits (n v : Nat) : bitsValue (valueBits n v) = v % 2 ^ n := by
  induction n with
  | zero => simp [valueBits, Nat.mod_one]
  | succ n ih =>
    rw [valueBits_succ, bitsValue_cons, valueBits_length, ih, Nat.toNat_testBit, Nat.mod_pow_succ]
    ring

/-- A bit string is the low bits of every number that agrees with its value as far as it reaches. -/
theorem valueBits_eq {n v : Nat} {bs : List Bool} (hlen : bs.length = n)
    (hval : v % 2 ^ n = bitsValue bs) : valueBits n v = bs :=
  eq_of_bitsValue_eq (by simp [hlen]) (by simp [hval])

theorem valueBits_bitsValue {n : Nat} {bs : List Bool} (hlen : bs.length = n) :
    valueBits n (bitsValue bs) = bs :=
  valueBits_eq hlen (Nat.mod_eq_of_lt (hlen ▸ bitsValue_lt bs))

/-! ### The bit string of a byte sequence (rule R13) -/

theorem byteBits_eq_valueBits (b : Byte) : byteBits b = valueBits 8 b.toNat := rfl

@[simp] theorem byteBits_length (b : Byte) : (byteBits b).length = 8 := rfl

theorem byteBits_injective : Function.Injective byteBits := by
  intro a b h
  have hval := congrArg bitsValue h
  simp only [byteBits_eq_valueBits, bitsValue_valueBits, Nat.mod_eq_of_lt (BitVec.isLt _)] at hval
  exact BitVec.eq_of_toNat_eq hval

theorem exists_byteBits {bs : List Bool} (hlen : bs.length = 8) :
    ∃ b : Byte, byteBits b = bs := by
  refine ⟨BitVec.ofNat 8 (bitsValue bs), ?_⟩
  rw [byteBits_eq_valueBits, BitVec.toNat_ofNat]
  exact valueBits_eq hlen (by rw [Nat.mod_mod, Nat.mod_eq_of_lt (hlen ▸ bitsValue_lt bs)])

@[simp] theorem bitString_nil : bitString [] = [] := rfl

@[simp] theorem bitString_cons (b : Byte) (bytes : List Byte) :
    bitString (b :: bytes) = byteBits b ++ bitString bytes := rfl

@[simp] theorem bitString_length (bytes : List Byte) :
    (bitString bytes).length = 8 * bytes.length := by
  induction bytes with
  | nil => rfl
  | cons b bytes ih => simp [ih]; omega

theorem bitString_injective : Function.Injective bitString := by
  intro as bs h
  have hlen : as.length = bs.length := by
    have := congrArg List.length h
    simp only [bitString_length] at this
    omega
  induction as generalizing bs with
  | nil => exact (List.length_eq_zero_iff.1 hlen.symm).symm
  | cons a as ih =>
    obtain _ | ⟨b, bs⟩ := bs
    · simp at hlen
    · obtain ⟨hbyte, hrest⟩ := List.append_inj h (by simp)
      rw [byteBits_injective hbyte, ih hrest (by simpa using hlen)]

theorem exists_bitString {n : Nat} {bs : List Bool} (hlen : bs.length = 8 * n) :
    ∃ bytes, bitString bytes = bs := by
  induction n generalizing bs with
  | zero => exact ⟨[], (List.length_eq_zero_iff.1 hlen).symm⟩
  | succ n ih =>
    obtain ⟨b, hb⟩ := exists_byteBits (bs := bs.take 8) (by simp; omega)
    obtain ⟨bytes, hbytes⟩ := ih (bs := bs.drop 8) (by simp; omega)
    exact ⟨b :: bytes, by rw [bitString_cons, hb, hbytes, List.take_append_drop]⟩

/-- `bit(B, k)` is bit `k` of the bit string, and 0 past its end. -/
theorem bitAt_eq_getD (bytes : List Byte) (k : Nat) :
    bitAt bytes k = ((bitString bytes).getD k false).toNat := by
  induction bytes generalizing k with
  | nil => simp [bitAt]
  | cons b bytes ih =>
    rcases Nat.lt_or_ge k 8 with hk | hk
    · have hbit : (byteBits b)[k]'hk = b.toNat.testBit (7 - k) := by
        simp [byteBits_eq_valueBits, valueBits]
      have hget : (bitString (b :: bytes)).getD k false = b.toNat.testBit (7 - k) := by
        rw [bitString_cons, List.getD_append _ _ _ _ hk, List.getD_eq_getElem _ _ hk, hbit]
      rw [hget, Nat.toNat_testBit, bitAt, Nat.div_eq_of_lt hk, Nat.mod_eq_of_lt hk]
      rfl
    · obtain ⟨j, rfl⟩ := Nat.exists_eq_add_of_le' hk
      have hat : bitAt (b :: bytes) (j + 8) = bitAt bytes j := by
        rw [bitAt, bitAt, Nat.add_div_right j (by decide), Nat.add_mod_right]
        rfl
      rw [hat, ih, bitString_cons, List.getD_append_right _ _ _ _ hk]
      rfl

theorem bitAt_eq_getElem {bytes : List Byte} {k : Nat} (hk : k < (bitString bytes).length) :
    bitAt bytes k = ((bitString bytes)[k]).toNat := by
  rw [bitAt_eq_getD, List.getD_eq_getElem _ _ hk]

theorem bitsMSB_succ (bytes : List Byte) (k n : Nat) :
    bitsMSB bytes k (n + 1) = bitAt bytes k * 2 ^ n + bitsMSB bytes (k + 1) n := by
  rw [bitsMSB, Finset.sum_range_succ', Nat.add_comm, bitsMSB]
  congr 1
  refine Finset.sum_congr rfl fun j _ => ?_
  rw [Nat.add_assoc k 1 j, Nat.add_comm 1 j]
  congr 2
  omega

/-- `bitsMSB(B, k, n)` is the value of the `n` bits from position `k`. -/
theorem bitsMSB_eq_bitsValue {bytes : List Byte} {k n : Nat}
    (h : k + n ≤ (bitString bytes).length) :
    bitsMSB bytes k n = bitsValue (((bitString bytes).drop k).take n) := by
  induction n generalizing k with
  | zero => simp [bitsMSB]
  | succ n ih =>
    have hk : k < (bitString bytes).length := by omega
    rw [bitsMSB_succ, ih (by omega), bitAt_eq_getElem hk, List.drop_eq_getElem_cons hk,
      List.take_succ_cons, bitsValue_cons]
    congr 3
    rw [List.length_take, List.length_drop]
    omega

/-! ### The public-key decoder (rules R183 to R185) -/

/-- Rule R184's error: one value that is not below q is enough. -/
theorem unpackCoeffs_of_large {n : Nat} {bs : List Bool}
    (h : ∃ i < n, q ≤ bitsValue ((bs.drop (14 * i)).take 14)) :
    unpackCoeffs n bs = .error .pkRange := by
  induction n generalizing bs with
  | zero => simp at h
  | succ n ih =>
    rw [unpackCoeffs]
    split
    case isTrue => rfl
    case isFalse hfirst =>
      obtain ⟨i, hi, hlarge⟩ := h
      obtain _ | i := i
      · exact absurd hlarge hfirst
      · rw [ih ⟨i, by omega, by rwa [List.drop_drop, Nat.add_comm 14]⟩, except_error_bind]

/-- With every value below q, the values are the coefficients. -/
theorem unpackCoeffs_of_small {n : Nat} {bs : List Bool}
    (h : ∀ i < n, bitsValue ((bs.drop (14 * i)).take 14) < q) :
    unpackCoeffs n bs =
      .ok (List.ofFn fun i : Fin n => Fq.ofNat (bitsValue ((bs.drop (14 * i.val)).take 14))) := by
  induction n generalizing bs with
  | zero => rfl
  | succ n ih =>
    have hfirst : bitsValue (bs.take 14) < q := h 0 (by omega)
    rw [unpackCoeffs, if_neg (by omega), ih fun i hi => ?_, except_ok_bind, List.ofFn_succ]
    · simp only [List.drop_drop, Fin.val_succ, Nat.mul_add, Nat.add_comm 14]
      rfl
    · rw [List.drop_drop, Nat.add_comm 14]
      exact h (i + 1) (by omega)

/-- Coefficients as 14 bits each, in index order (rule R183). -/
def packCoeffs (cs : List Fq) : List Bool := cs.flatMap fun c => valueBits 14 c.val

@[simp] theorem packCoeffs_cons (c : Fq) (cs : List Fq) :
    packCoeffs (c :: cs) = valueBits 14 c.val ++ packCoeffs cs := rfl

@[simp] theorem packCoeffs_length (cs : List Fq) : (packCoeffs cs).length = 14 * cs.length := by
  induction cs with
  | nil => rfl
  | cons c cs ih => simp [ih]; omega

/-- The body of a public-key blob is 896 bytes. -/
theorem packCoeffs_poly_length (h : Poly) : (packCoeffs h.toList).length = 8 * 896 := by
  rw [packCoeffs_length, Vector.length_toList]
  rfl

theorem bitsValue_valueBits_coeff (c : Fq) : bitsValue (valueBits 14 c.val) = c.val := by
  rw [bitsValue_valueBits, Nat.mod_eq_of_lt (c.isLt.trans (by decide))]

theorem unpackCoeffs_packCoeffs (cs : List Fq) :
    unpackCoeffs cs.length (packCoeffs cs) = .ok cs := by
  induction cs with
  | nil => rfl
  | cons c cs ih =>
    have hlt := c.isLt
    rw [List.length_cons, unpackCoeffs, packCoeffs_cons, List.take_left' (valueBits_length ..),
      List.drop_left' (valueBits_length ..), bitsValue_valueBits_coeff, if_neg (by omega), ih,
      except_ok_bind, Fq.ofNat_val_self]

theorem packCoeffs_of_unpackCoeffs {n : Nat} {bs : List Bool} {cs : List Fq}
    (hlen : bs.length = 14 * n) (h : unpackCoeffs n bs = .ok cs) :
    cs.length = n ∧ packCoeffs cs = bs := by
  induction n generalizing bs cs with
  | zero =>
    obtain rfl : [] = cs := Except.ok.inj h
    exact ⟨rfl, (List.length_eq_zero_iff.1 hlen).symm⟩
  | succ n ih =>
    rw [unpackCoeffs] at h
    split at h
    case isTrue => cases h
    case isFalse hfirst =>
      obtain ⟨ds, hds, hcs⟩ := except_bind_eq_ok.1 h
      obtain rfl := Except.ok.inj hcs
      obtain ⟨hn, hpack⟩ := ih (by simp; omega) hds
      have hval : (Fq.ofNat (bitsValue (bs.take 14))).val = bitsValue (bs.take 14) :=
        Nat.mod_eq_of_lt (by omega)
      refine ⟨by rw [List.length_cons, hn], ?_⟩
      rw [packCoeffs_cons, hval, valueBits_bitsValue (by simp; omega), hpack,
        List.take_append_drop]

theorem pkDecode_of_length_ne {bytes : List Byte} (h : bytes.length ≠ 897) :
    pkDecode bytes = .error .length := if_pos h

theorem pkDecode_of_header_ne {bytes : List Byte} (hlen : bytes.length = 897)
    (h : bytes.getD 0 0 ≠ 0x09) : pkDecode bytes = .error .pkHeader := by
  rw [pkDecode, if_neg (not_not.2 hlen), if_pos (by rwa [List.headD_eq_getD])]

theorem pkDecode_of_body {bytes : List Byte} (hlen : bytes.length = 897)
    (h : bytes.getD 0 0 = 0x09) :
    pkDecode bytes =
      (unpackCoeffs ringDegree (bitString (bytes.drop 1)) >>= fun cs => .ok (Poly.ofList cs)) := by
  rw [pkDecode, if_neg (not_not.2 hlen), if_neg (not_not.2 (by rwa [List.headD_eq_getD]))]

/-- Value `i` of the body, where the decoder reads it and by its position. -/
theorem bitsMSB_body {bytes : List Byte} (hlen : bytes.length = 897) {i : Nat} (hi : i < 512) :
    bitsMSB (bytes.drop 1) (14 * i) 14 =
      bitsValue (((bitString (bytes.drop 1)).drop (14 * i)).take 14) :=
  bitsMSB_eq_bitsValue (by rw [bitString_length, List.length_drop]; omega)

/-- Settles O39: the values at their bit positions are the ones the decoder reads one by one. -/
theorem publicKeyDecoder : Obligations.PublicKeyDecoder := by
  intro bytes
  refine ⟨pkDecode_of_length_ne, pkDecode_of_header_ne, fun hlen hhdr ⟨i, hi, hlarge⟩ => ?range,
    fun hlen hhdr hsmall => ?value⟩
  case range =>
    rw [bitsMSB_body hlen hi] at hlarge
    rw [pkDecode_of_body hlen hhdr, unpackCoeffs_of_large ⟨i, hi, hlarge⟩, except_error_bind]
  case value =>
    have hunpack := unpackCoeffs_of_small (n := ringDegree) fun i hi =>
      bitsMSB_body hlen hi ▸ hsmall i hi
    refine ⟨_, by rw [pkDecode_of_body hlen hhdr, hunpack, except_ok_bind], fun i => ?_⟩
    rw [Fin.getElem_fin, Poly.ofList_getElem List.length_ofFn i.val i.isLt, List.getElem_ofFn,
      Fq.ofNat_val, ← bitsMSB_body hlen i.isLt, Nat.mod_eq_of_lt (hsmall i.val i.isLt)]

/-- What the decoder accepts is the header and the packed coefficients of its answer. -/
theorem pkDecode_eq_ok_iff {bytes : List Byte} {h : Poly} :
    pkDecode bytes = .ok h ↔
      ∃ body, bytes = pkHeader :: body ∧ bitString body = packCoeffs h.toList := by
  constructor
  · intro hok
    have hlen : bytes.length = 897 := by
      by_contra hne
      rw [pkDecode_of_length_ne hne] at hok
      cases hok
    have hhdr : bytes.getD 0 0 = 0x09 := by
      by_contra hne
      rw [pkDecode_of_header_ne hlen hne] at hok
      cases hok
    rw [pkDecode_of_body hlen hhdr] at hok
    obtain ⟨cs, hcs, heq⟩ := except_bind_eq_ok.1 hok
    obtain rfl := Except.ok.inj heq
    have hbits : (bitString (bytes.drop 1)).length = 14 * ringDegree := by
      rw [bitString_length, List.length_drop, hlen]
      rfl
    obtain ⟨hn, hpack⟩ := packCoeffs_of_unpackCoeffs hbits hcs
    obtain _ | ⟨b, body⟩ := bytes
    · cases hlen
    · obtain rfl : b = pkHeader := hhdr
      exact ⟨body, rfl, by rw [Poly.ofList_toList hn, hpack]; rfl⟩
  · rintro ⟨body, rfl, hbody⟩
    have hlen : body.length = 896 := by
      have hbits := congrArg List.length hbody
      rw [bitString_length, packCoeffs_poly_length] at hbits
      omega
    have hunpack := unpackCoeffs_packCoeffs h.toList
    rw [Vector.length_toList, ← hbody] at hunpack
    rw [pkDecode_of_body (by simp [hlen]) rfl, List.drop_one, List.tail_cons, hunpack,
      except_ok_bind]
    exact congrArg _ (Vector.toList_inj.1 (Poly.ofList_toList Vector.length_toList))

/-- Settles O40: 512 coefficients of 14 bits are the bits of exactly one sequence of 896 bytes. -/
theorem eachPublicKeyHasOneBlob : Obligations.EachPublicKeyHasOneBlob := by
  intro h
  obtain ⟨body, hbody⟩ := exists_bitString (n := 896) (packCoeffs_poly_length h)
  refine ⟨pkHeader :: body, pkDecode_eq_ok_iff.2 ⟨body, rfl, hbody⟩, fun other hother => ?_⟩
  obtain ⟨body', rfl, hbody'⟩ := pkDecode_eq_ok_iff.1 hother
  rw [bitString_injective (hbody'.trans hbody.symm)]

/-! ### One coefficient code (rule R189) -/

/-- A run of `k` bits equal to `CONT` adds `k` times 2^LOWBITS. -/
theorem readRun_replicate {g : Cfg} {k mag : Nat} (h : mag + k * 2 ^ g.lowBits ≤ g.maxMag)
    (rest : List Bool) :
    readRun g mag (List.replicate k g.cont ++ (!g.cont) :: rest) =
      .ok (mag + k * 2 ^ g.lowBits, rest) := by
  induction k generalizing mag with
  | zero => simp [readRun]
  | succ k ih =>
    have hsum : mag + (k + 1) * 2 ^ g.lowBits = mag + 2 ^ g.lowBits + k * 2 ^ g.lowBits := by ring
    rw [hsum] at h ⊢
    rw [List.replicate_succ, List.cons_append, readRun, if_neg (not_not.2 rfl), if_neg (by omega),
      ih h]

/-- A run that is accepted is bits equal to `CONT` and the terminator, within `MAXMAG`. -/
theorem readRun_eq_ok {g : Cfg} {mag m : Nat} {bs rest : List Bool} (hmag : mag ≤ g.maxMag)
    (h : readRun g mag bs = .ok (m, rest)) :
    ∃ k, m = mag + k * 2 ^ g.lowBits ∧ m ≤ g.maxMag ∧
      bs = List.replicate k g.cont ++ (!g.cont) :: rest := by
  induction bs generalizing mag with
  | nil => cases h
  | cons b bs ih =>
    rw [readRun] at h
    split at h
    case isTrue hb =>
      cases h
      exact ⟨0, by simp, hmag, by simpa using Bool.eq_not_of_ne hb⟩
    case isFalse hb =>
      split at h
      case isTrue => cases h
      case isFalse hle =>
        obtain ⟨k, hm, hmax, hbs⟩ := ih (by omega) h
        refine ⟨k + 1, by rw [hm]; ring, hmax, ?_⟩
        rw [hbs, not_not.1 hb, List.replicate_succ, List.cons_append]

theorem readCode_of_short {g : Cfg} {bs : List Bool} (h : bs.length < 1 + g.lowBits) :
    readCode g bs = .error .sigOverrun := by
  rw [readCode, if_pos (by rw [List.length_take]; omega)]

/-- What one code does with its sign bit, its low bits and the bits after them. -/
theorem readCode_cons_append {g : Cfg} (sign : Bool) {low : List Bool}
    (hlow : low.length = g.lowBits) (bs : List Bool) :
    readCode g (sign :: (low ++ bs)) =
      (readRun g (bitsValue low) bs >>= fun run =>
        if sign ∧ run.1 = 0 then .error .sigNegZero else .ok (signedCoeff sign run.1, run.2)) := by
  have htake : (sign :: (low ++ bs)).take (1 + g.lowBits) = sign :: low := by
    rw [Nat.add_comm, List.take_succ_cons, List.take_left' hlow]
  have hdrop : (sign :: (low ++ bs)).drop (1 + g.lowBits) = bs := by
    rw [Nat.add_comm, List.drop_succ_cons, List.drop_left' hlow]
  rw [readCode, htake, hdrop, if_neg (by rw [List.length_cons]; omega)]
  rfl

/-- The bits from a position on: a sign bit, `n` low bits and the rest. -/
theorem drop_eq_sign_low_append {bs : List Bool} {pos : Nat} (h : pos < bs.length) (n : Nat) :
    bs.drop pos = bs[pos] :: ((bs.drop (pos + 1)).take n ++ bs.drop (pos + 1 + n)) := by
  rw [← List.drop_drop (i := n), List.take_append_drop, List.drop_eq_getElem_cons h]

/-- A string long enough for a sign bit and the low bits starts with them. -/
theorem eq_sign_low_append {g : Cfg} {bs : List Bool} (h : ¬ bs.length < 1 + g.lowBits) :
    ∃ sign low rest, low.length = g.lowBits ∧ bs = sign :: (low ++ rest) := by
  have hpos : 0 < bs.length := by omega
  have hlow : ((bs.drop 1).take g.lowBits).length = g.lowBits := by
    rw [List.length_take, List.length_drop]
    omega
  exact ⟨bs[0], _, bs.drop (1 + g.lowBits), hlow, by
    simpa using drop_eq_sign_low_append hpos g.lowBits⟩

/-- The low bits alone are within `MAXMAG` (rule R9). -/
theorem bitsValue_low_le {g : Cfg} {low : List Bool} (hlow : low.length = g.lowBits) :
    bitsValue low ≤ g.maxMag := by
  have hlt := bitsValue_lt low
  have hmax := g.low_le_maxMag
  rw [hlow] at hlt
  omega

theorem coefficientCode_append (g : Cfg) (sign : Bool) (mag : Nat) (rest : List Bool) :
    coefficientCode g sign mag ++ rest =
      sign :: (valueBits g.lowBits mag ++
        (List.replicate (mag / 2 ^ g.lowBits) g.cont ++ (!g.cont) :: rest)) := by
  simp [coefficientCode, valueBits]

theorem readCode_coefficientCode {g : Cfg} {sign : Bool} {mag : Nat} (hmag : mag ≤ g.maxMag)
    (hzero : ¬ (sign = true ∧ mag = 0)) (rest : List Bool) :
    readCode g (coefficientCode g sign mag ++ rest) = .ok (signedCoeff sign mag, rest) := by
  have hsplit : mag % 2 ^ g.lowBits + mag / 2 ^ g.lowBits * 2 ^ g.lowBits = mag :=
    Nat.mod_add_div' mag _
  rw [coefficientCode_append, readCode_cons_append sign (valueBits_length ..), bitsValue_valueBits,
    readRun_replicate (hsplit.trans_le hmag), except_ok_bind, hsplit, if_neg hzero]

/-- A code that is accepted is that of a valid sign and magnitude. -/
theorem readCode_eq_ok {g : Cfg} {bs rest : List Bool} {c : Fq}
    (h : readCode g bs = .ok (c, rest)) :
    ∃ sign mag, mag ≤ g.maxMag ∧ ¬ (sign = true ∧ mag = 0) ∧ c = signedCoeff sign mag ∧
      bs = coefficientCode g sign mag ++ rest := by
  by_cases hlen : bs.length < 1 + g.lowBits
  · rw [readCode_of_short hlen] at h
    cases h
  · obtain ⟨sign, low, tail, hlow, rfl⟩ := eq_sign_low_append hlen
    rw [readCode_cons_append sign hlow] at h
    obtain ⟨⟨m, after⟩, hrun, hcode⟩ := except_bind_eq_ok.1 h
    obtain ⟨k, hm, hmax, rfl⟩ := readRun_eq_ok (bitsValue_low_le hlow) hrun
    have hlt := hlow ▸ bitsValue_lt low
    have hmod : m % 2 ^ g.lowBits = bitsValue low := by
      rw [hm, Nat.add_mul_mod_self_right, Nat.mod_eq_of_lt hlt]
    have hdiv : m / 2 ^ g.lowBits = k := by
      rw [hm, Nat.add_mul_div_right _ _ (Nat.two_pow_pos _), Nat.div_eq_of_lt hlt, Nat.zero_add]
    split at hcode
    case isTrue => cases hcode
    case isFalse hzero =>
      cases hcode
      refine ⟨sign, m, hmax, hzero, rfl, ?_⟩
      rw [coefficientCode_append, valueBits_eq hlow hmod, hdiv]

theorem signedCoeff_val {g : Cfg} {sign : Bool} {mag : Nat} (hmag : mag ≤ g.maxMag)
    (hzero : ¬ (sign = true ∧ mag = 0)) :
    (signedCoeff sign mag).val = if sign then 12289 - mag else mag := by
  have hq := g.maxMag_lt
  cases sign with
  | false => exact Nat.mod_eq_of_lt (by omega)
  | true =>
    have hpos : mag ≠ 0 := fun h => hzero ⟨rfl, h⟩
    exact Nat.mod_eq_of_lt (Nat.sub_lt (by decide) (by omega))

/-- Settles O41: the low bits are the magnitude mod 2^LOWBITS, the run adds the rest. -/
theorem coefficientCodeIsReadBack : Obligations.CoefficientCodeIsReadBack :=
  fun _ _ _ rest hmag hzero =>
    ⟨_, signedCoeff_val hmag hzero, readCode_coefficientCode hmag hzero rest⟩

theorem center_signedCoeff {g : Cfg} {mag : Nat} (hmag : mag ≤ g.maxMag) (sign : Bool) :
    center (signedCoeff sign mag) = if sign then -(mag : Int) else mag := by
  have hq : 2 * g.maxMag < 12289 := g.maxMag_lt
  by_cases hzero : sign = true ∧ mag = 0
  · obtain ⟨rfl, rfl⟩ := hzero
    rfl
  · rw [center, signedCoeff_val hmag hzero]
    cases sign with
    | false => simp; omega
    | true =>
      have hpos : mag ≠ 0 := fun h => hzero ⟨rfl, h⟩
      simp; omega

/-! ### Accepted signature blobs (rules R190, R193) -/

/-- The code of a field element: the sign and the magnitude of its centered representative. -/
def coeffCode (g : Cfg) (c : Fq) : List Bool :=
  coefficientCode g (decide (center c < 0)) (center c).natAbs

/-- An accepted code is the one code of its coefficient, which is within `MAXMAG` of zero. -/
theorem readCode_eq_ok_coeffCode {g : Cfg} {bs rest : List Bool} {c : Fq}
    (h : readCode g bs = .ok (c, rest)) :
    (center c).natAbs ≤ g.maxMag ∧ bs = coeffCode g c ++ rest := by
  obtain ⟨sign, mag, hmag, hzero, rfl, rfl⟩ := readCode_eq_ok h
  have habs : (center (signedCoeff sign mag)).natAbs = mag := by
    rw [center_signedCoeff hmag]
    cases sign <;> simp
  have hsign : decide (center (signedCoeff sign mag) < 0) = sign := by
    rw [center_signedCoeff hmag]
    cases sign with
    | false => simp
    | true => simpa [Nat.pos_iff_ne_zero] using hzero
  exact ⟨habs.trans_le hmag, by rw [coeffCode, habs, hsign]⟩

theorem readCodes_eq_ok {g : Cfg} {n : Nat} {bs rest : List Bool} {cs : List Fq}
    (h : readCodes g n bs = .ok (cs, rest)) :
    cs.length = n ∧ (∀ c ∈ cs, (center c).natAbs ≤ g.maxMag) ∧
      bs = cs.flatMap (coeffCode g) ++ rest := by
  induction n generalizing bs cs with
  | zero =>
    cases h
    simp
  | succ n ih =>
    obtain ⟨⟨c, after⟩, hcode, htail⟩ := except_bind_eq_ok.1 h
    obtain ⟨⟨ds, after'⟩, hcodes, heq⟩ := except_bind_eq_ok.1 htail
    cases heq
    obtain ⟨hc, rfl⟩ := readCode_eq_ok_coeffCode hcode
    obtain ⟨hn, hds, rfl⟩ := ih hcodes
    refine ⟨by rw [List.length_cons, hn], List.forall_mem_cons.2 ⟨hc, hds⟩, ?_⟩
    rw [List.flatMap_cons, List.append_assoc]

theorem sigDecode_of_length_ne {g : Cfg} {bytes : List Byte} (h : bytes.length ≠ 666) :
    sigDecode g bytes = .error .length := if_pos h

theorem sigDecode_of_header_ne {g : Cfg} {bytes : List Byte} (hlen : bytes.length = 666)
    (h : bytes.getD 0 0 ≠ 0x39) : sigDecode g bytes = .error .sigHeader := by
  rw [sigDecode, if_neg (not_not.2 hlen), if_pos (by rwa [List.headD_eq_getD])]

theorem sigDecode_of_stream {g : Cfg} {bytes : List Byte} (hlen : bytes.length = 666)
    (h : bytes.getD 0 0 = 0x39) :
    sigDecode g bytes =
      (readCodes g ringDegree (bitString (bytes.drop 41)) >>= fun codes =>
        if codes.2.any id then .error .sigTrail else .ok (Poly.ofList codes.1)) := by
  rw [sigDecode, if_neg (not_not.2 hlen), if_neg (not_not.2 (by rwa [List.headD_eq_getD]))]

/-- What the decoder accepts is the header, a nonce, the codes of its answer and zeros. -/
theorem sigDecode_eq_ok {g : Cfg} {bytes : List Byte} {s2 : Poly}
    (h : sigDecode g bytes = .ok s2) :
    bytes.length = 666 ∧ bytes.getD 0 0 = 0x39 ∧
      (∀ c ∈ s2.toList, (center c).natAbs ≤ g.maxMag) ∧
      ∃ k, bitString (bytes.drop 41) =
        s2.toList.flatMap (coeffCode g) ++ List.replicate k false := by
  have hlen : bytes.length = 666 := by
    by_contra hne
    rw [sigDecode_of_length_ne hne] at h
    cases h
  have hhdr : bytes.getD 0 0 = 0x39 := by
    by_contra hne
    rw [sigDecode_of_header_ne hlen hne] at h
    cases h
  rw [sigDecode_of_stream hlen hhdr] at h
  obtain ⟨⟨cs, rest⟩, hcodes, hend⟩ := except_bind_eq_ok.1 h
  obtain ⟨hn, hbound, hbits⟩ := readCodes_eq_ok hcodes
  split at hend
  case isTrue => cases hend
  case isFalse htrail =>
    cases hend
    have hzeros : rest = List.replicate rest.length false :=
      List.eq_replicate_of_mem fun b hb => by
        by_contra hne
        exact htrail (List.any_eq_true.2 ⟨b, hb, by simpa using hne⟩)
    rw [Poly.ofList_toList hn]
    exact ⟨hlen, hhdr, hbound, rest.length, hzeros ▸ hbits⟩

/-- A signature blob in its three parts: header, nonce, stream. -/
theorem eq_header_nonce_stream {bytes : List Byte} (hlen : bytes.length = 666) :
    bytes = bytes.getD 0 0 :: ((bytes.drop 1).take 40 ++ bytes.drop 41) := by
  obtain _ | ⟨b, rest⟩ := bytes
  · cases hlen
  · simp

/-- Settles O43: the codes and the length of the stream fix how many zeros follow them. -/
theorem signatureDecodeIsUnique : Obligations.SignatureDecodeIsUnique := by
  intro g b1 b2 s2 h1 h2 hnonce
  obtain ⟨hlen1, hhdr1, -, k1, hbits1⟩ := sigDecode_eq_ok h1
  obtain ⟨hlen2, hhdr2, -, k2, hbits2⟩ := sigDecode_eq_ok h2
  have hk : k1 = k2 := by
    have hl1 := congrArg List.length hbits1
    have hl2 := congrArg List.length hbits2
    simp only [bitString_length, List.length_drop, List.length_append, List.length_replicate,
      hlen1, hlen2] at hl1 hl2
    omega
  have hstream : b1.drop 41 = b2.drop 41 := bitString_injective (by rw [hbits1, hbits2, hk])
  rw [eq_header_nonce_stream hlen1, eq_header_nonce_stream hlen2, hhdr1, hhdr2, hnonce, hstream]

/-- Entries within `m` of zero bound the norm. -/
theorem normSquared_le_of_center_le {f : Poly} {m : Nat}
    (h : ∀ i : Fin ringDegree, -(m : Int) ≤ center f[i] ∧ center f[i] ≤ m) :
    normSquared f ≤ 512 * m ^ 2 := by
  have hsum : (normSquared f : Int) ≤ 512 * (m : Int) ^ 2 := by
    calc (normSquared f : Int) = ∑ i : Fin ringDegree, center f[i] ^ 2 := by
          simp only [normSquared_eq_sum, sq]
      _ ≤ ∑ _i : Fin ringDegree, (m : Int) ^ 2 :=
          Finset.sum_le_sum fun i _ => sq_le_sq' (h i).1 (h i).2
      _ = 512 * (m : Int) ^ 2 := by
          rw [Finset.sum_const, Finset.card_univ, Fintype.card_fin, nsmul_eq_mul]
          rfl
  exact_mod_cast hsum

theorem center_bounds_of_sigDecode {g : Cfg} {bytes : List Byte} {s2 : Poly}
    (h : sigDecode g bytes = .ok s2) (i : Fin ringDegree) :
    -(g.maxMag : Int) ≤ center s2[i] ∧ center s2[i] ≤ g.maxMag := by
  obtain ⟨-, -, hbound, -⟩ := sigDecode_eq_ok h
  have habs := hbound s2[i] (by simp)
  omega

/-- The decoder looks at the length, the header and the stream. -/
theorem sigDecode_congr {g : Cfg} {b1 b2 : List Byte} (hlen : b1.length = b2.length)
    (hhdr : b1.headD 0 = b2.headD 0) (hstream : b1.drop 41 = b2.drop 41) :
    sigDecode g b1 = sigDecode g b2 := by
  rw [sigDecode, sigDecode, hlen, hhdr, hstream]

/-- Settles O44: each code read is within `MAXMAG`, and no nonce byte is looked at. -/
theorem signatureDecodeIsBoundedAndIgnoresNonce :
    Obligations.SignatureDecodeIsBoundedAndIgnoresNonce := by
  refine ⟨fun g bytes s2 h => ⟨center_bounds_of_sigDecode h,
    normSquared_le_of_center_le (center_bounds_of_sigDecode h)⟩, ?nonce⟩
  intro g n1 n2 stream hdr h1 h2
  refine sigDecode_congr (by simp [h1, h2]) rfl ?_
  rw [List.drop_succ_cons, List.drop_succ_cons, List.drop_left' h1, List.drop_left' h2]

/-! ### The decoder by bit position (rule R190) -/

theorem contBit_eq_toNat (g : Cfg) : contBit g = g.cont.toNat := by
  rw [contBit]
  cases g.cont <;> rfl

/-- The coefficient as rule R190 writes it. -/
theorem signedCoeff_eq_ofNat (sign : Bool) (mag : Nat) :
    signedCoeff sign mag = Fq.ofNat (if sign then 12289 - mag else mag) :=
  (apply_ite Fq.ofNat ..).symm

section
variable {g : Cfg} {stream : List Byte}

/-- The result of a decoder by position as one that consumes the bit string: in place of a position,
the bits from there on. -/
def consumed {α : Type} (stream : List Byte) (r : Except DecodeError (α × Nat)) :
    Except DecodeError (α × List Bool) :=
  r.map fun v => (v.1, (bitString stream).drop v.2)

theorem consumed_ok {α : Type} (v : α × Nat) :
    consumed stream (.ok v) = .ok (v.1, (bitString stream).drop v.2) := rfl

/-- From `pos` on the two decoders read the run alike, as long as the fuel reaches the end. -/
theorem readRun_drop (hbits : (bitString stream).length = 5000) {fuel pos mag : Nat}
    (hfuel : 5000 ≤ fuel + pos) :
    readRun g mag ((bitString stream).drop pos) =
      consumed stream (runByPosition g stream fuel pos mag) := by
  induction fuel generalizing pos mag with
  | zero =>
    rw [List.drop_eq_nil_of_le (by omega)]
    rfl
  | succ fuel ih =>
    rw [runByPosition]
    by_cases hpos : 5000 ≤ pos
    · rw [if_pos hpos, List.drop_eq_nil_of_le (by omega)]
      rfl
    · have hlt : pos < (bitString stream).length := by omega
      have hend : (bitAt stream pos ≠ contBit g) = ((bitString stream)[pos] ≠ g.cont) := by
        rw [bitAt_eq_getElem hlt, contBit_eq_toNat]
        cases (bitString stream)[pos] <;> cases g.cont <;> simp
      rw [if_neg hpos, List.drop_eq_getElem_cons hlt, readRun, ih (by omega)]
      simp only [hend, apply_ite (consumed stream)]
      rfl

theorem readCodes_drop (hbits : (bitString stream).length = 5000) (n pos : Nat) :
    readCodes g n ((bitString stream).drop pos) =
      consumed stream (codesByPosition g stream n pos) := by
  induction n generalizing pos with
  | zero => rfl
  | succ n ih =>
    rw [readCodes, codesByPosition]
    by_cases hpos : 5000 < pos + 1 + g.lowBits
    · rw [if_pos hpos, readCode_of_short (by rw [List.length_drop]; omega)]
      rfl
    · have hlt : pos < (bitString stream).length := by omega
      have hsign : (bitAt stream pos = 1) = ((bitString stream)[pos] = true) := by
        rw [bitAt_eq_getElem hlt]
        simp
      have hlow : (((bitString stream).drop (pos + 1)).take g.lowBits).length = g.lowBits := by
        rw [List.length_take, List.length_drop]
        omega
      rw [if_neg hpos, drop_eq_sign_low_append hlt g.lowBits, readCode_cons_append _ hlow,
        ← bitsMSB_eq_bitsValue (by omega), readRun_drop (fuel := 5000) hbits (by omega)]
      simp only [hsign]
      cases runByPosition g stream 5000 (pos + 1 + g.lowBits)
        (bitsMSB stream (pos + 1) g.lowBits) with
      | error e => rfl
      | ok run =>
        rw [consumed_ok, except_ok_bind, except_ok_bind]
        by_cases hneg : (bitString stream)[pos] = true ∧ run.1 = 0
        · rw [if_pos hneg, if_pos hneg]
          rfl
        · rw [if_neg hneg, if_neg hneg, except_ok_bind, ih, signedCoeff_eq_ofNat]
          cases codesByPosition g stream n run.2 <;> rfl

/-- A bit is set past `pos` exactly if a position from there on holds a 1. -/
theorem any_drop_eq (hbits : (bitString stream).length = 5000) (pos : Nat) :
    ((bitString stream).drop pos).any id =
      (List.range' pos (5000 - pos)).any fun k => bitAt stream k != 0 := by
  have hmap : (bitString stream).drop pos =
      (List.range' pos (5000 - pos)).map fun k => (bitString stream).getD k false := by
    apply List.ext_getElem
    · simp [hbits]
    · intro i _ _
      rw [List.getElem_drop, List.getElem_map, List.getElem_range', Nat.one_mul,
        List.getD_eq_getElem]
  rw [hmap, List.any_map]
  congr 1
  funext k
  rw [bitAt_eq_getD, Function.comp_apply]
  cases (bitString stream).getD k false <;> rfl

end

/-- Settles O42: both decoders read the same bits, and past the last code the same bits are left. -/
theorem signatureDecoderFollowsTheRule : Obligations.SignatureDecoderFollowsTheRule := by
  intro g bytes
  rw [sigDecodeByPosition]
  by_cases hlen : bytes.length = 666
  · rw [if_neg (not_not.2 hlen)]
    by_cases hhdr : bytes.getD 0 0 = 0x39
    · have hbits : (bitString (bytes.drop 41)).length = 5000 := by
        rw [bitString_length, List.length_drop, hlen]
      have hcodes := readCodes_drop (g := g) hbits ringDegree 0
      rw [List.drop_zero] at hcodes
      rw [if_neg (not_not.2 hhdr), sigDecode_of_stream hlen hhdr, hcodes]
      cases codesByPosition g (bytes.drop 41) 512 0 with
      | error e => rfl
      | ok codes => rw [consumed_ok, except_ok_bind, except_ok_bind, any_drop_eq hbits]
    · rw [if_pos hhdr, sigDecode_of_header_ne hlen hhdr]
  · rw [if_pos hlen, sigDecode_of_length_ne hlen]

/-! ### The commands (rules R186, R192) -/

theorem State.bufBytes_zero (s : State) (n : Nat) :
    s.bufBytes 0 n = (List.range n).map s.bufByte := by
  simp only [State.bufBytes_eq, Nat.zero_add]

theorem exec_pkdec (d : PReg) (s : State) :
    exec (.pkdec d) s = .next (putDecoded d s
      (if s.blen.toNat ≠ 897 then .error .length
        else pkDecode ((List.range 897).map s.bufByte))) := by
  rw [← State.bufBytes_zero]
  rfl

theorem exec_sgdec (d : PReg) (s : State) :
    exec (.sgdec d) s = .next (putDecoded d s
      (if s.blen.toNat ≠ 666 then .error .length
        else sigDecode Config.cfg ((List.range 666).map s.bufByte))) := by
  rw [← State.bufBytes_zero]
  rfl

/-- Settles O45: the length check, then the two ways `pk_decode` can end. -/
theorem decodePublicKeyIntoRegister : Obligations.DecodePublicKeyIntoRegister := by
  intro d s
  rw [exec_pkdec]
  refine ⟨decode_commandWord rfl rfl, fun hlen => ?length, fun hlen e he => ?error,
    fun hlen h hok => ?value⟩
  case length => rw [if_pos hlen, putDecoded]
  case error => rw [if_neg (not_not.2 hlen), he, putDecoded]
  case value => rw [if_neg (not_not.2 hlen), hok, putDecoded, State.setP]

/-- Settles O46: the length check, then the two ways `sig_decode` can end. -/
theorem decodeSignatureIntoRegister : Obligations.DecodeSignatureIntoRegister := by
  intro d s
  rw [exec_sgdec]
  refine ⟨decode_commandWord rfl rfl, fun hlen => ?length, fun hlen e he => ?error,
    fun hlen s2 hok => ?value⟩
  case length => rw [if_pos hlen, putDecoded]
  case error => rw [if_neg (not_not.2 hlen), he, putDecoded]
  case value => rw [if_neg (not_not.2 hlen), hok, putDecoded, State.setP]

end Sys2Proof.Machine

/-! ## Hash-to-point (`43_hash_to_point.md`)

MSET and NSET are one checked write (`wideToElement`) into two register files. For the sponge, the two
absorbed states are named (`nonceSponge`, `messageSponge`) and read position by position; the squeeze is
an induction over its rounds. -/

namespace Sys2Proof.Machine

/-! ### MSET and NSET (rules R216, R217) -/

/-- A wide-field value read from an `x` register, put into the element register that `idx` picks. -/
def wideToElement (g : Cfg) {n : Nat} (put : Fin n → Word64 → State) (a : XReg) (k : Idx)
    (s : State) : Except FaultCode State :=
  elementReg n k >>= fun i => s.readX a >>= fun v => requireWide g v >>= fun _ => .ok (put i v)

theorem exec_mset (a : XReg) (k : Idx) (s : State) :
    exec (.mset a k) s =
      finish (commandWord 0x30 0 a 0 k) s (wideToElement Config.cfg s.setM a k s) := by
  rw [← packFields_eq_commandWord]; rfl

theorem exec_nset (a : XReg) (k : Idx) (s : State) :
    exec (.nset a k) s =
      finish (commandWord 0x31 0 a 0 k) s (wideToElement Config.cfg s.setN a k s) := by
  rw [← packFields_eq_commandWord]; rfl

section
variable {g : Cfg} {n : Nat} {put : Fin n → Word64 → State} {a : XReg} {k : Idx} {s : State}
  {w : Word32} {v : Word64}

theorem finish_wideToElement_missing (hk : k.val < n) (hx : s.x[a] = none) :
    finish w s (wideToElement g put a k s) = .next { s with fault := some .uninit, fcmd := w } := by
  rw [wideToElement, elementReg_lt hk, except_ok_bind, readX_none hx, except_error_bind,
    finish_error, takeFault]

theorem finish_wideToElement_tooLarge (hk : k.val < n) (hx : s.x[a] = some v)
    (hv : g.pWide ≤ v.toNat) :
    finish w s (wideToElement g put a k s) = .next { s with fault := some .range, fcmd := w } := by
  rw [wideToElement, elementReg_lt hk, except_ok_bind, readX_some hx, except_ok_bind,
    requireWide_ge hv, except_error_bind, finish_error, takeFault]

theorem finish_wideToElement_value (hk : k.val < n) (hx : s.x[a] = some v)
    (hv : v.toNat < g.pWide) :
    finish w s (wideToElement g put a k s) = .next (put ⟨k.val, hk⟩ v) := by
  rw [wideToElement, elementReg_lt hk, except_ok_bind, readX_some hx, except_ok_bind,
    requireWide_lt hv, except_ok_bind, finish_ok]

end

/-- Settles O47: the checks of `wideToElement` in order, for either register file. -/
theorem setMessageAndNonceElements : Obligations.SetMessageAndNonceElements := by
  intro a k s
  rw [exec_mset, exec_nset]
  constructor
  all_goals
    intro hk
    exact ⟨decode_commandWord rfl (decide_eq_true hk), finish_wideToElement_missing hk,
      fun v hx => ⟨finish_wideToElement_tooLarge hk hx, finish_wideToElement_value hk hx⟩⟩

/-! ### Absorbing (rules R212, R214) -/

section
variable {g : Cfg}

theorem absorbElement_of_overwrite (h : g.absorb = .overwrite) (old v : g.Fw) :
    absorbElement g old v = v := by
  rw [absorbElement, h]

theorem absorbElement_val_of_add (h : g.absorb = .add) (old v : g.Fw) :
    (absorbElement g old v).val = (old.val + v.val) % g.pWide := by
  rw [absorbElement, h]

/-- Absorbed into zero, an element is stored as it is in both modes. -/
theorem absorbElement_zeroFw (v : g.Fw) : absorbElement g g.zeroFw v = v := by
  cases hmode : g.absorb with
  | overwrite => exact absorbElement_of_overwrite hmode _ v
  | add =>
    apply Fin.ext
    rw [absorbElement_val_of_add hmode, Cfg.zeroFw, Nat.zero_add, Nat.mod_eq_of_lt v.isLt]

variable {k : Nat} {st : g.Sponge} {vs : Vector g.Fw k} {i : Fin g.w}

theorem absorbInto_getElem_absorbed (h : g.rate0 ≤ i.val ∧ i.val < g.rate0 + k) :
    (absorbInto g st vs)[i] = absorbElement g st[i] (vs[i.val - g.rate0]'(by omega)) := by
  rw [absorbInto, tabulate_getElem_fin, dif_pos ⟨h.1, by omega⟩]

theorem absorbInto_getElem_kept (h : ¬ (g.rate0 ≤ i.val ∧ i.val < g.rate0 + k)) :
    (absorbInto g st vs)[i] = st[i] := by
  rw [absorbInto, tabulate_getElem_fin, dif_neg (by omega)]

end

/-- The sponge state with the nonce absorbed. -/
def nonceSponge (g : Cfg) (nonce : Vector Word64 8) : g.Sponge :=
  absorbInto g (Vector.replicate g.w g.zeroFw) (tabulate 8 fun j => g.toFw nonce[j])

/-- The sponge state with the message absorbed after the nonce. -/
def messageSponge (g : Cfg) (message : Vector Word64 4) (nonce : Vector Word64 8) : g.Sponge :=
  absorbInto g (g.permute (nonceSponge g nonce)) (tabulate 4 fun j => g.toFw message[j])

/-- The nonce stands in the rate, and zeros stand everywhere else. -/
theorem nonceSponge_getElem_val {g : Cfg} {nonce : Vector Word64 8}
    (hnonce : ∀ j : Fin 8, nonce[j].toNat < g.pWide) (i : Fin g.w) :
    (nonceSponge g nonce)[i].val =
      if h : g.rate0 ≤ i.val ∧ i.val < g.rate0 + 8 then
        (nonce[i.val - g.rate0]'(by omega)).toNat else 0 := by
  have hzero : (Vector.replicate g.w g.zeroFw)[i] = g.zeroFw := Vector.getElem_replicate i.isLt
  rw [nonceSponge]
  split
  case isTrue h =>
    rw [absorbInto_getElem_absorbed h, hzero, absorbElement_zeroFw, tabulate_getElem]
    exact Cfg.toFw_val (hnonce ⟨i.val - g.rate0, by omega⟩)
  case isFalse h => rw [absorbInto_getElem_kept h, hzero, Cfg.zeroFw]

/-- The message stands in the first half of the rate, combined in the mode of the configuration. -/
theorem messageSponge_getElem_val {g : Cfg} {message : Vector Word64 4} {nonce : Vector Word64 8}
    (hmessage : ∀ j : Fin 4, message[j].toNat < g.pWide) (i : Fin g.w) :
    (messageSponge g message nonce)[i].val =
      if h : g.rate0 ≤ i.val ∧ i.val < g.rate0 + 4 then
        match g.absorb with
        | .overwrite => (message[i.val - g.rate0]'(by omega)).toNat
        | .add => ((g.permute (nonceSponge g nonce))[i].val +
            (message[i.val - g.rate0]'(by omega)).toNat) % g.pWide
      else (g.permute (nonceSponge g nonce))[i].val := by
  rw [messageSponge]
  split
  case isTrue h =>
    have hvalue := Cfg.toFw_val (hmessage ⟨i.val - g.rate0, by omega⟩)
    rw [absorbInto_getElem_absorbed h, tabulate_getElem]
    cases hmode : g.absorb with
    | overwrite => rw [absorbElement_of_overwrite hmode, hvalue]; rfl
    | add => rw [absorbElement_val_of_add hmode, hvalue]; rfl
  case isFalse h => rw [absorbInto_getElem_kept h]

/-! ### Squeezing (rules R213, R214) -/

theorem hashToPoint_eq_squeezeRounds (g : Cfg) (message : Vector Word64 4)
    (nonce : Vector Word64 8) :
    hashToPoint g message nonce = Poly.ofList (squeezeRounds g 64 (messageSponge g message nonce)) :=
  rfl

@[simp] theorem squeezeRate_length (g : Cfg) (st : g.Sponge) : (squeezeRate g st).length = 8 :=
  List.length_ofFn

@[simp] theorem squeezeRounds_length (g : Cfg) (n : Nat) (st : g.Sponge) :
    (squeezeRounds g n st).length = 8 * n := by
  induction n generalizing st with
  | zero => rfl
  | succ n ih => rw [squeezeRounds, List.length_append, squeezeRate_length, ih]; omega

/-- Round `r` reads the rate after `r + 1` permutations. -/
theorem squeezeRounds_getElem? {g : Cfg} {n r j : Nat} (hr : r < n) (hj : j < 8) (st : g.Sponge) :
    (squeezeRounds g n st)[8 * r + j]? = (squeezeRate g (g.permute^[r + 1] st))[j]? := by
  induction n generalizing r st with
  | zero => cases hr
  | succ n ih =>
    rw [squeezeRounds]
    cases r with
    | zero => rw [List.getElem?_append_left (by simpa using hj), Nat.mul_zero, Nat.zero_add]; rfl
    | succ r =>
      have hindex : 8 * (r + 1) + j - 8 = 8 * r + j := by omega
      rw [List.getElem?_append_right (by rw [squeezeRate_length]; omega), squeezeRate_length, hindex,
        ih (Nat.lt_of_succ_lt_succ hr), Function.iterate_succ_apply _ (r + 1)]

/-- Coefficient `8r + j` comes from round `r`, position `j`. -/
theorem hashToPoint_getElem (g : Cfg) (message : Vector Word64 4) (nonce : Vector Word64 8)
    (r : Fin 64) (j : Fin 8) (hi : g.rate0 + j.val < g.w) :
    (hashToPoint g message nonce)[8 * r.val + j.val]'(by unfold ringDegree; omega) =
      Fq.ofNat (g.permute^[r.val + 1] (messageSponge g message nonce))[g.rate0 + j.val].val := by
  have hround := squeezeRounds_getElem? r.isLt j.isLt (messageSponge g message nonce)
  rw [List.getElem?_eq_getElem (by rw [squeezeRounds_length]; omega),
    List.getElem?_eq_getElem (by rw [squeezeRate_length]; exact j.isLt), Option.some.injEq] at hround
  rw [hashToPoint_eq_squeezeRounds, Poly.ofList_getElem (squeezeRounds_length ..), hround]
  exact List.getElem_ofFn ..

/-- Settles O48: the absorbed states position by position, and the rounds of the squeeze. -/
theorem hashToPointFollowsTheRule : Obligations.HashToPointFollowsTheRule := by
  intro g message nonce hmessage hnonce
  refine ⟨nonceSponge g nonce, messageSponge g message nonce, nonceSponge_getElem_val hnonce,
    messageSponge_getElem_val hmessage, fun r j hi => ?_⟩
  rw [hashToPoint_getElem g message nonce r j hi, Fq.ofNat_val]

/-! ### H2P (rule R218) -/

theorem exec_h2p (d : PReg) (s : State) :
    exec (.h2p d) s = finish (commandWord 0x32 d 0 0 0) s
      (allValues s.m >>= fun message => allValues s.n >>= fun nonce =>
        .ok (s.setP d .coef (hashToPoint Config.cfg message nonce))) := by
  rw [← packFields_eq_commandWord]; rfl

/-- A register file is read whole or is `F_UNINIT`. -/
theorem allValues_cases {n : Nat} (r : Vector (Option Word64) n) :
    (∃ v, allValues r = .ok v) ∨ allValues r = .error .uninit := by
  unfold allValues
  split
  · exact .inl ⟨_, rfl⟩
  · exact .inr rfl

/-- Whichever of the two files lacks a value, the fault is `F_UNINIT`. -/
theorem allValues_bind_of_missing {n k : Nat} {r : Vector (Option Word64) n}
    {t : Vector (Option Word64) k} (h : (∃ j : Fin n, r[j] = none) ∨ ∃ j : Fin k, t[j] = none)
    (f : Vector Word64 n → Vector Word64 k → Except FaultCode State) :
    (allValues r >>= fun u => allValues t >>= fun v => f u v) = .error .uninit := by
  rcases h with hr | ht
  · rw [allValues_none hr, except_error_bind]
  · obtain ⟨u, hu⟩ | hu := allValues_cases r
    · rw [hu, except_ok_bind, allValues_none ht, except_error_bind]
    · rw [hu, except_error_bind]

/-- Settles O49: both files are read whole before the write. -/
theorem hashToPointIntoRegister : Obligations.HashToPointIntoRegister := by
  intro d s
  rw [exec_h2p]
  refine ⟨decode_commandWord rfl rfl, fun message nonce hm hn => ?value, fun hnone => ?missing⟩
  case value =>
    rw [allValues_some hm, except_ok_bind, allValues_some hn, except_ok_bind, finish_ok, State.setP]
  case missing => rw [allValues_bind_of_missing hnone, finish_error, takeFault]

end Sys2Proof.Machine

/-! ## The signature context and the verifier (`44_signature_verify.md`)

Each command is given by its equation (`exec_load` to `exec_verify`), and the checked read of `SIG`
by its two answers. What STORE wrote is read back byte by byte; the verdict is one `↔`
(`verifyFn_eq_true_iff`); the replay of VERIFY is three stretches of commands, each with what it
leaves in the registers. -/

namespace Sys2Proof.Machine

/-- Settles O38: the recovered polynomial is defined by the transforms, and is the ring difference
by their two laws. -/
theorem recoveredPolynomialIsTheRingDifference :
    Obligations.RecoveredPolynomialIsTheRingDifference :=
  fun g cp s2 h => ⟨rfl, recoverS1_eq_ringDifference g cp s2 h⟩

/-! ### LOAD (rules R231, R232) -/

theorem exec_load (s : State) :
    exec .load s = .next (putContext s
      (if s.blen.toNat ≠ 1563 then .error .length else decodeContext Config.cfg s)) := rfl

theorem State.bufVector_zero_toList (s : State) (n : Nat) :
    (s.bufVector 0 n).toList = (List.range n).map s.bufByte := s.bufBytes_zero n

/-- The signature blob is not looked at once the public key is rejected. -/
theorem decodeContext_of_pk_error {g : Cfg} {s : State} {e : DecodeError}
    (hpk : pkDecode (s.bufVector 0 pkLen).toList = .error e) : decodeContext g s = .error e := by
  rw [decodeContext, hpk, except_error_bind]

theorem decodeContext_of_sig_error {g : Cfg} {s : State} {h : Poly} {e : DecodeError}
    (hpk : pkDecode (s.bufVector 0 pkLen).toList = .ok h)
    (hsg : sigDecode g (s.bufVector pkLen sigLen).toList = .error e) :
    decodeContext g s = .error e := by
  rw [decodeContext, hpk, except_ok_bind, hsg, except_error_bind]

theorem decodeContext_of_ok {g : Cfg} {s : State} {sg : Signature}
    (hpkb : s.bufVector 0 pkLen = sg.pkb) (hsgb : s.bufVector pkLen sigLen = sg.sgb)
    (hpk : pkDecode sg.pkb.toList = .ok sg.h) (hsg : sigDecode g sg.sgb.toList = .ok sg.s2) :
    decodeContext g s = .ok sg := by
  rw [decodeContext, hpkb, hsgb, hpk, except_ok_bind, hsg, except_ok_bind]

/-- Settles O50: the length check, then the three ways the two decodes can end. -/
theorem loadTakesAllOrNothing : Obligations.LoadTakesAllOrNothing := by
  refine ⟨decode_commandWord (i := .load) rfl rfl, fun s => ?_⟩
  rw [exec_load, ← s.bufVector_zero_toList, ← s.bufVector_toList]
  refine ⟨fun hlen => ?length, fun hlen e hpk => ?pk, fun hlen h e hpk hsg => ?sig,
    fun hlen h s2 hpk hsg => ?value⟩
  case length => rw [if_pos hlen, putContext]
  case pk => rw [if_neg (not_not.2 hlen), decodeContext_of_pk_error hpk, putContext]
  case sig => rw [if_neg (not_not.2 hlen), decodeContext_of_sig_error hpk hsg, putContext]
  case value =>
    let sg : Signature := ⟨s.bufVector 0 pkLen, s.bufVector pkLen sigLen, h, s2⟩
    have hok : decodeContext Config.cfg s = .ok sg := decodeContext_of_ok rfl rfl hpk hsg
    refine ⟨sg, fun k => ?_, fun k => s.bufVector_getElem pkLen sigLen k k.isLt, rfl, rfl, ?_⟩
    · exact (s.bufVector_getElem 0 pkLen k k.isLt).trans (by rw [Nat.zero_add])
    · rw [if_neg (not_not.2 hlen), hok, putContext]

/-! ### The commands that need a signature (rule R267) -/

/-- What STORE makes of `BUF` (rule R233). -/
def State.withStored (s : State) (sg : Signature) : State :=
  s.writeBufBytes 0 (sg.pkb.toList ++ sg.sgb.toList)

section
variable {s : State} {sg : Signature}

theorem finish_readSig_some (w : Word32) (h : s.sig = some sg)
    (k : Signature → Except FaultCode State) :
    finish w s (s.readSig >>= k) = finish w s (k sg) := by
  rw [readSig_some h, except_ok_bind]

theorem finish_readSig_none (w : Word32) (h : s.sig = none)
    (k : Signature → Except FaultCode State) :
    finish w s (s.readSig >>= k) = .next { s with fault := some .nosig, fcmd := w } := by
  rw [readSig_none h, except_error_bind, finish_error, takeFault]

theorem exec_store (s : State) :
    exec .store s = finish 0x41000000 s
      (s.readSig >>= fun sg => .ok { s.withStored sg with blen := 1563 }) := rfl

theorem exec_getn (s : State) :
    exec .getn s = finish 0x42000000 s
      (s.readSig >>= fun sg =>
        .ok { s with n := tabulate 8 fun j => some (nonceElements sg.sgb)[j] }) := rfl

theorem exec_geth (d : PReg) (s : State) :
    exec (.geth d) s = finish (commandWord 0x43 d 0 0 0) s
      (s.readSig >>= fun sg => .ok (s.setP d .coef sg.h)) := by
  rw [← packFields_eq_commandWord]; rfl

theorem exec_gets (d : PReg) (s : State) :
    exec (.gets d) s = finish (commandWord 0x44 d 0 0 0) s
      (s.readSig >>= fun sg => .ok (s.setP d .coef sg.s2)) := by
  rw [← packFields_eq_commandWord]; rfl

theorem exec_store_of_sig (h : s.sig = some sg) :
    exec .store s = .next { s.withStored sg with blen := 1563 } := by
  rw [exec_store, finish_readSig_some _ h, finish_ok]

theorem exec_getn_of_sig (h : s.sig = some sg) :
    exec .getn s = .next { s with n := tabulate 8 fun j => some (nonceElements sg.sgb)[j] } := by
  rw [exec_getn, finish_readSig_some _ h, finish_ok]

theorem exec_geth_of_sig (d : PReg) (h : s.sig = some sg) :
    exec (.geth d) s = .next (s.setP d .coef sg.h) := by
  rw [exec_geth, finish_readSig_some _ h, finish_ok]

theorem exec_gets_of_sig (d : PReg) (h : s.sig = some sg) :
    exec (.gets d) s = .next (s.setP d .coef sg.s2) := by
  rw [exec_gets, finish_readSig_some _ h, finish_ok]

end

/-! ### STORE, and LOAD after it (rules R233, R234) -/

theorem rawBytes_length (sg : Signature) : (sg.pkb.toList ++ sg.sgb.toList).length = 1563 := by
  simp [pkLen, sigLen]

theorem withStored_bufByte_of_lt (s : State) (sg : Signature) {k : Nat} (hk : k < 1563) :
    (s.withStored sg).bufByte k =
      (sg.pkb.toList ++ sg.sgb.toList)[k]'((rawBytes_length sg).symm ▸ hk) := by
  rw [State.withStored, State.bufByte_writeBytes, dif_pos (by rw [rawBytes_length]; omega)]
  rfl

theorem withStored_bufByte_pkb (s : State) (sg : Signature) (k : Fin 897) :
    (s.withStored sg).bufByte k.val = sg.pkb[k] := by
  rw [withStored_bufByte_of_lt s sg (by omega), List.getElem_append_left (by simp [pkLen])]
  rfl

theorem withStored_bufByte_sgb (s : State) (sg : Signature) (k : Fin 666) :
    (s.withStored sg).bufByte (897 + k.val) = sg.sgb[k] := by
  rw [withStored_bufByte_of_lt s sg (by omega), List.getElem_append_right (by simp [pkLen])]
  simp [pkLen]

theorem withStored_bufByte_above (s : State) (sg : Signature) {a : Nat} (ha : 1563 ≤ a) :
    (s.withStored sg).bufByte a = s.bufByte a := by
  rw [State.withStored, State.bufByte_writeBytes, dif_neg (by rw [rawBytes_length]; omega)]

/-- Settles O51: the bytes written are read back at their addresses. -/
theorem storeWritesTheRawBytes : Obligations.StoreWritesTheRawBytes := by
  refine ⟨decode_commandWord (i := .store) rfl rfl, fun s =>
    ⟨fun h => ?missing, fun sg h => ?value⟩⟩
  case missing => rw [exec_store, finish_readSig_none _ h]
  case value =>
    exact ⟨(s.withStored sg).buf, exec_store_of_sig h, withStored_bufByte_pkb s sg,
      withStored_bufByte_sgb s sg, fun a => withStored_bufByte_above s sg⟩

/-- The context that STORE wrote is the one that LOAD makes, if it holds the decodes of its raw
bytes. -/
theorem decodeContext_withStored {g : Cfg} {s : State} {sg : Signature}
    (hpk : pkDecode sg.pkb.toList = .ok sg.h) (hsg : sigDecode g sg.sgb.toList = .ok sg.s2) :
    decodeContext g { s.withStored sg with blen := 1563 } = .ok sg := by
  refine decodeContext_of_ok (Vector.ext fun k hk => ?_) (Vector.ext fun k hk => ?_) hpk hsg
  · rw [State.bufVector_getElem, Nat.zero_add]
    exact withStored_bufByte_pkb s sg ⟨k, hk⟩
  · rw [State.bufVector_getElem]
    exact withStored_bufByte_sgb s sg ⟨k, hk⟩

/-! ### Sequences of commands -/

@[simp] theorem runCommands_nil (s : State) : runCommands [] s = .next s := rfl

theorem runCommands_cons {i : Instr} {s t : State} (h : exec i s = .next t) (is : List Instr) :
    runCommands (i :: is) s = runCommands is t := by
  rw [runCommands, h]

theorem runCommands_append {is : List Instr} {s t : State} (h : runCommands is s = .next t)
    (js : List Instr) : runCommands (is ++ js) s = runCommands js t := by
  induction is generalizing s with
  | nil => rw [List.nil_append, ← Host.Outcome.next.inj h]
  | cons i is ih =>
    rw [List.cons_append, runCommands]
    rw [runCommands] at h
    cases hexec : exec i s with
    | next u => rw [hexec] at h; exact ih h
    | fault r => cases r
    | refused r => rw [hexec] at h; cases h

/-- Settles O52: what LOAD decodes is what STORE wrote, whose decodes the invariant gives. -/
theorem storeThenLoadIsTheSameContext : Obligations.StoreThenLoadIsTheSameContext := by
  intro s sg hinv hsig
  obtain ⟨hpk, hsg⟩ := hinv.context sg hsig
  refine ⟨putContext { s.withStored sg with blen := 1563 } (.ok sg), ?_, rfl, rfl⟩
  have hlen : ¬ (1563 : BitVec 11).toNat ≠ 1563 := by decide
  rw [runCommands_cons (exec_store_of_sig hsig), runCommands_cons (exec_load _), runCommands_nil,
    if_neg hlen, decodeContext_withStored hpk hsg]

/-! ### GETN, GETH and GETS (rules R235 to R238) -/

theorem littleEndian_ofFn {n : Nat} (f : Fin n → Byte) :
    littleEndian (List.ofFn f) = ∑ k, (f k).toNat * 256 ^ k.val := by
  induction n with
  | zero => rfl
  | succ n ih =>
    rw [List.ofFn_succ, littleEndian, ih, Fin.sum_univ_succ, Finset.mul_sum]
    simp [pow_succ', mul_left_comm]

theorem take_five_drop (sgb : Vector Byte sigLen) (j : Fin 8) :
    (sgb.toList.drop (1 + 5 * j.val)).take 5 = List.ofFn fun k : Fin 5 =>
      sgb[1 + 5 * j.val + k.val]'(by unfold sigLen; omega) := by
  refine List.ext_getElem ?_ fun k hk hk' => ?_
  · simp only [List.length_take, List.length_drop, Vector.length_toList, List.length_ofFn, sigLen]
    omega
  · simp only [List.getElem_take, List.getElem_drop, Vector.getElem_toList, List.getElem_ofFn]

/-- Rule R235: a nonce element is the integer of its five bytes, which fits the register. -/
theorem nonceElements_toNat (sgb : Vector Byte sigLen) (j : Fin 8) :
    (nonceElements sgb)[j].toNat = ∑ k : Fin 5,
      (sgb[1 + 5 * j.val + k.val]'(by unfold sigLen; omega)).toNat * 256 ^ k.val := by
  have hlt := littleEndian_lt ((sgb.toList.drop (1 + 5 * j.val)).take 5)
  rw [take_five_drop, List.length_ofFn] at hlt
  rw [nonceElements, tabulate_getElem_fin, BitVec.toNat_ofNat, take_five_drop,
    Nat.mod_eq_of_lt (hlt.trans (by decide)), littleEndian_ofFn]

/-- Settles O53: the nonce elements as sums of their bytes. -/
theorem extractNonce : Obligations.ExtractNonce := by
  refine ⟨decode_commandWord (i := .getn) rfl rfl, fun s =>
    ⟨fun h => ?missing, fun sg h => ?value⟩⟩
  case missing => rw [exec_getn, finish_readSig_none _ h]
  case value => exact ⟨nonceElements sg.sgb, nonceElements_toNat sg.sgb, exec_getn_of_sig h⟩

/-- Settles O54: both commands read `SIG`, then write one register. -/
theorem copyDecodedPolynomials : Obligations.CopyDecodedPolynomials := by
  intro d s
  refine ⟨decode_commandWord rfl rfl, decode_commandWord rfl rfl, fun h => ?_,
    fun sg h => ⟨exec_geth_of_sig d h, exec_gets_of_sig d h⟩⟩
  rw [exec_geth, exec_gets]
  exact ⟨finish_readSig_none _ h _, finish_readSig_none _ h _⟩

/-! ### CSET (rule R239) -/

theorem exec_cset (a : XReg) (k : Idx) (s : State) :
    exec (.cset a k) s = finish (commandWord 0x45 0 a 0 k) s
      (elementReg 4 k >>= fun i => s.readX a >>= fun v => .ok (s.setC i v)) := by
  rw [← packFields_eq_commandWord]; rfl

/-- Settles O55: the one check of the value is that there is one. -/
theorem setCommitmentLimb : Obligations.SetCommitmentLimb := by
  intro a k s hk
  rw [exec_cset, elementReg_lt hk, except_ok_bind]
  refine ⟨decode_commandWord rfl (decide_eq_true hk), fun v hv => ?value, fun hnone => ?missing⟩
  case value => rw [readX_some hv, except_ok_bind, finish_ok, State.setC]
  case missing => rw [readX_none hnone, except_error_bind, finish_error, takeFault]

/-! ### VERIFY (rules R245, R246) -/

/-- Rule R245: the commitment gate and the strict bound. -/
theorem verifyFn_eq_true_iff {g : Cfg} {h s2 : Poly} {sgb : Vector Byte sigLen}
    {message commitment : Vector Word64 4} :
    verifyFn g h s2 sgb message commitment = true ↔
      (∀ j : Fin 4, (g.commitHash h)[j] = commitment[j]) ∧
      normSquared (recoverS1 g (hashToPoint g message (nonceElements sgb)) s2 h) + normSquared s2 <
        g.l2Bound := by
  have hgate : (g.commitHash h).toList = commitment.toList ↔
      ∀ j : Fin 4, (g.commitHash h)[j] = commitment[j] := by
    rw [Vector.toList_inj]
    exact ⟨fun heq j => heq ▸ rfl, fun hall => Vector.ext fun i hi => hall ⟨i, hi⟩⟩
  simp [verifyFn, hgate]

theorem exec_verify (d : XReg) (s : State) :
    exec (.verify d) s = finish (commandWord 0x46 d 0 0 0) s
      (allValues s.m >>= fun message => allValues s.c >>= fun commitment =>
        .ok (s.setX d (if verdict Config.cfg s.sig message commitment then 1 else 0))) := by
  rw [← packFields_eq_commandWord]; rfl

section
variable {s : State} {message commitment : Vector Word64 4} (d : XReg)
  (hm : ∀ j : Fin 4, s.m[j] = some message[j]) (hc : ∀ j : Fin 4, s.c[j] = some commitment[j])
include hm hc

theorem exec_verify_of_values :
    exec (.verify d) s = .next
      (s.setX d (if verdict Config.cfg s.sig message commitment then 1 else 0)) := by
  rw [exec_verify, allValues_some hm, except_ok_bind, allValues_some hc, except_ok_bind, finish_ok]

theorem exec_verify_of_no_sig (hsig : s.sig = none) :
    exec (.verify d) s = .next (s.setX d 0) := by
  rw [exec_verify_of_values d hm hc, hsig]; rfl

variable {sg : Signature} {s1 : Poly} (hsig : s.sig = some sg)
  (hs1 : s1 = recoverS1 Config.cfg
    (hashToPoint Config.cfg message (nonceElements sg.sgb)) sg.s2 sg.h)
include hsig hs1

theorem exec_verify_accepts
    (h : (∀ j : Fin 4, (Config.cfg.commitHash sg.h)[j] = commitment[j]) ∧
      normSquared s1 + normSquared sg.s2 < Config.cfg.l2Bound) :
    exec (.verify d) s = .next (s.setX d 1) := by
  rw [hs1] at h
  have haccept : verdict Config.cfg (some sg) message commitment = true := verifyFn_eq_true_iff.2 h
  rw [exec_verify_of_values d hm hc, hsig, if_pos haccept]

theorem exec_verify_rejects
    (h : (∃ j : Fin 4, (Config.cfg.commitHash sg.h)[j] ≠ commitment[j]) ∨
      Config.cfg.l2Bound ≤ normSquared s1 + normSquared sg.s2) :
    exec (.verify d) s = .next (s.setX d 0) := by
  rw [hs1] at h
  have hreject : ¬ verdict Config.cfg (some sg) message commitment = true := fun haccept => by
    obtain ⟨hgate, hbound⟩ := verifyFn_eq_true_iff.1 haccept
    obtain ⟨j, hj⟩ | hlarge := h
    · exact hj (hgate j)
    · exact hlarge.not_gt hbound
  rw [exec_verify_of_values d hm hc, hsig, if_neg hreject]

end

/-- Settles O56: both register files are read whole, then the verdict is written. -/
theorem verifyWritesTheVerdict : Obligations.VerifyWritesTheVerdict := by
  intro d s
  refine ⟨decode_commandWord rfl rfl, fun hnone => ?missing, fun message commitment hm hc =>
    ⟨exec_verify_of_no_sig d hm hc, fun sg cp s1 hsig hcp hs1 => ?verdict⟩⟩
  case missing => rw [exec_verify, allValues_bind_of_missing hnone, finish_error, takeFault]
  case verdict =>
    subst hcp
    exact ⟨exec_verify_accepts d hm hc hsig hs1, exec_verify_rejects d hm hc hsig hs1⟩

/-! ### VERIFY by primitive commands (rule R247) -/

theorem State.setP_p_self (s : State) (d : PReg) (form : Form) (e : Poly) :
    (s.setP d form e).p[d] = .held form e := Vector.getElem_set_self d.isLt

theorem exec_h2p_of_values {s : State} {message : Vector Word64 4} {nonce : Vector Word64 8}
    (d : PReg) (hm : ∀ j : Fin 4, s.m[j] = some message[j])
    (hn : ∀ j : Fin 8, s.n[j] = some nonce[j]) :
    exec (.h2p d) s = .next (s.setP d .coef (hashToPoint Config.cfg message nonce)) := by
  rw [exec_h2p, allValues_some hm, except_ok_bind, allValues_some hn, except_ok_bind, finish_ok]

section
variable {s : State} {a b : PReg} {u v : Poly}

theorem exec_ntt_of_held (d : PReg) (ha : s.p[a] = .held .coef u) :
    exec (.ntt d a) s = .next (s.setP d .eval (nttOf Config.cfg u)) := by
  rw [exec_ntt, finish_readForm_held ha, finish_ok]

theorem exec_intt_of_held (d : PReg) (ha : s.p[a] = .held .eval u) :
    exec (.intt d a) s = .next (s.setP d .coef (inttOf Config.cfg u)) := by
  rw [exec_intt, finish_readForm_held ha, finish_ok]

theorem exec_hadam_of_held (d : PReg) (ha : s.p[a] = .held .eval u) (hb : s.p[b] = .held .eval v) :
    exec (.hadam d a b) s = .next (s.setP d .eval (hadamardOf u v)) := by
  rw [exec_hadam, finish_readForm_held ha, finish_readForm_held hb, finish_ok]

theorem exec_psub_of_held {form : Form} (d : PReg) (ha : s.p[a] = .held form u)
    (hb : s.p[b] = .held form v) :
    exec (.psub d a b) s = .next (s.setP d form (pointwiseSub u v)) := by
  rw [exec_psub, finish_readPair_held ha hb, finish_ok]

theorem exec_normsq_of_held (d : XReg) (ha : s.p[a] = .held .coef u) :
    exec (.normsq d a) s = .next (s.setX d (BitVec.ofNat 64 (normSquared u))) := by
  rw [exec_normsq, finish_readForm_held ha, finish_ok]

end

/-- A command, then a sequence that ends in a state with `P`. -/
theorem exists_runCommands_cons {i : Instr} {is : List Instr} {s u : State} {P : State → Prop}
    (h : exec i s = .next u) (hrest : ∃ t, runCommands is u = .next t ∧ P t) :
    ∃ t, runCommands (i :: is) s = .next t ∧ P t :=
  runCommands_cons h is ▸ hrest

/-- The first stretch puts what VERIFY works on into `p[0]`, `p[1]` and `p[2]`. -/
theorem runCommands_fetch {s : State} {sg : Signature} {message : Vector Word64 4}
    (hsig : s.sig = some sg) (hm : ∀ j : Fin 4, s.m[j] = some message[j]) :
    ∃ t, runCommands [.getn, .h2p 0, .gets 1, .geth 2] s = .next t ∧ t.fault = s.fault ∧
      t.p[0] = .held .coef (hashToPoint Config.cfg message (nonceElements sg.sgb)) ∧
      t.p[1] = .held .coef sg.s2 ∧ t.p[2] = .held .coef sg.h := by
  refine exists_runCommands_cons (exec_getn_of_sig hsig) ?_
  refine exists_runCommands_cons
    (exec_h2p_of_values 0 hm fun j => tabulate_getElem_fin (α := Option Word64) ..) ?_
  refine exists_runCommands_cons (exec_gets_of_sig 1 hsig) ?_
  refine exists_runCommands_cons (exec_geth_of_sig 2 hsig) ⟨_, rfl, by simp⟩

/-- The second stretch is `recoverS1`, from `p[0]`, `p[1]` and `p[2]` to `p[7]`. -/
theorem runCommands_recoverS1 {s : State} {cp s2 h : Poly} (h0 : s.p[0] = .held .coef cp)
    (h1 : s.p[1] = .held .coef s2) (h2 : s.p[2] = .held .coef h) :
    ∃ t, runCommands [.ntt 3 0, .ntt 4 1, .ntt 5 2, .hadam 6 4 5, .psub 6 3 6, .intt 7 6] s =
        .next t ∧ t.fault = s.fault ∧
      t.p[7] = .held .coef (recoverS1 Config.cfg cp s2 h) ∧
      t.p[1] = .held .coef s2 := by
  refine exists_runCommands_cons (exec_ntt_of_held 3 h0) ?_
  refine exists_runCommands_cons (exec_ntt_of_held 4 (u := s2) (by simp [h1])) ?_
  refine exists_runCommands_cons (exec_ntt_of_held 5 (u := h) (by simp [h2])) ?_
  refine exists_runCommands_cons
    (exec_hadam_of_held 6 (u := nttOf Config.cfg s2) (by simp) (State.setP_p_self ..)) ?_
  refine exists_runCommands_cons
    (exec_psub_of_held 6 (u := nttOf Config.cfg cp) (by simp) (State.setP_p_self ..)) ?_
  refine exists_runCommands_cons (exec_intt_of_held 7 (State.setP_p_self ..)) ⟨_, rfl, ?_⟩
  simp [recoverS1, h1]

/-- The third stretch leaves the two norms in `x[0]` and `x[1]`. -/
theorem runCommands_norms {s : State} {s1 s2 : Poly} (h7 : s.p[7] = .held .coef s1)
    (h1 : s.p[1] = .held .coef s2) :
    ∃ t, runCommands [.normsq 0 7, .normsq 1 1] s = .next t ∧ t.fault = s.fault ∧
      t.x[0] = some (BitVec.ofNat 64 (normSquared s1)) ∧
      t.x[1] = some (BitVec.ofNat 64 (normSquared s2)) := by
  refine exists_runCommands_cons (exec_normsq_of_held 0 h7) ?_
  refine exists_runCommands_cons (exec_normsq_of_held 1 h1) ⟨_, rfl, by simp⟩

/-- Settles O58: the three stretches end to end, and the verdict on the polynomials whose norms they
leave. -/
theorem primitiveCommandsReplayVerify : Obligations.PrimitiveCommandsReplayVerify := by
  intro s sg message hs hsig hm
  obtain ⟨t1, hrun1, hf1, hp0, hp1, hp2⟩ := runCommands_fetch hsig hm
  obtain ⟨t2, hrun2, hf2, hp7, hp1⟩ := runCommands_recoverS1 hp0 hp1 hp2
  obtain ⟨t, hrun3, hf3, hx0, hx1⟩ := runCommands_norms hp7 hp1
  have hrun := (runCommands_append hrun1 _).trans ((runCommands_append hrun2 _).trans hrun3)
  refine ⟨t, _, _, hrun, hf3.trans (hf2.trans (hf1.trans hs)), hx0, hx1, normSquared_toNat _,
    normSquared_toNat _, fun commitment d hc => ?_⟩
  rw [normSquared_toNat, normSquared_toNat]
  exact ⟨exec_verify_accepts d hm hc hsig rfl, exec_verify_rejects d hm hc hsig rfl⟩

end Sys2Proof.Machine

/-! ## Faults and completion (`60_exceptions.md`)

A command's only fault is that of `finish`, since no effect touches `FAULT` (`Effect.keeps_fault`).
That a step completes goes up the layers: the command, the issue of its word, the host's write of it,
any action. -/

namespace Sys2Proof.Machine

/-! ### The issue of a word that is not executed (rules R263, R269) -/

theorem issue_of_fault {code : FaultCode} {s : State} (hs : s.fault = some code) (w : Word32) :
    issue w s = .next s := by
  simp [issue, hs]

theorem issue_of_not_command {w : Word32} {s : State} (hs : s.faultFree)
    (hw : ¬ ∃ i, decode w = .ok i) : issue w s = .next (takeFault .illegal w s) := by
  cases hd : decode w with
  | ok i => exact absurd ⟨i, hd⟩ hw
  | error e => simp [issue, hs, hd]

/-- Settles O6: a word that fits no row is no command, by O20, and its issue takes the fault. -/
theorem illegalWordRaisesIllegal : Obligations.IllegalWordRaisesIllegal := by
  intro s rest v hs hrows
  have hdecode : ¬ ∃ i, decode (v.setWidth 32) = .ok i := fun hi =>
    have ⟨row, hmem, hfits⟩ := (decodeAcceptsExactlyTheTable.1 _).1 hi
    hrows row hmem hfits
  rw [step_writeCsr, hostWriteCsr_cmd]
  exact issue_of_not_command (s := { s with pending := rest }) hs hdecode

/-- Settles O7: the write of `CMD` issues the word, and the issue ignores it. -/
theorem faultedEngineIgnoresCommands : Obligations.FaultedEngineIgnoresCommands := by
  intro s rest v code hs
  rw [step_writeCsr, hostWriteCsr_cmd]
  exact issue_of_fault (s := { s with pending := rest }) hs _

/-! ### Precise faults (rule R261) -/

theorem Effect.keeps_fault {i : Instr} {s t : State} (h : Effect i s t) : t.fault = s.fault := by
  cases h with
  | x | f | p | m | n | c | decoded | undecoded | loaded | unloaded | stored | nonce => rfl

/-- Settles O11: an effect leaves the engine without a fault, and a fault is `takeFault`. -/
theorem faultsArePrecise : Obligations.FaultsArePrecise := by
  intro i s t hs h hfault
  obtain heffect | ⟨code, rfl⟩ := exec_cases h
  · exact absurd (heffect.keeps_fault.trans hs) hfault
  · rfl

/-! ### Completion (rules R281, R298) -/

/-- PZERO, PKDEC, SGDEC and LOAD check no operand and only have their effect; every other command
ends in `finish`. -/
theorem exec_completes (i : Instr) (s : State) : ∃ t, exec i s = .next t := by
  cases i
  case pzero | pkdec | sgdec | load => exact ⟨_, rfl⟩
  all_goals exact finish_completes _ s _

theorem issue_completes (w : Word32) (s : State) : ∃ t, issue w s = .next t := by
  cases hs : s.fault with
  | some code => exact ⟨s, issue_of_fault hs w⟩
  | none =>
    by_cases hw : ∃ i, decode w = .ok i
    · obtain ⟨i, hi⟩ := hw
      exact issue_of_decode hs hi ▸ exec_completes i s
    · exact ⟨_, issue_of_not_command hs hw⟩

theorem hostWriteCsr_completes (num : Nat) (v : Word64) (s : State) :
    ∃ t, hostWriteCsr num v s = .next t := by
  unfold hostWriteCsr
  split_ifs with hblen hctrl hreset hcmd
  · exact ⟨_, rfl⟩
  · exact ⟨_, rfl⟩
  · exact ⟨_, rfl⟩
  · exact issue_completes _ s
  · cases xOfCsr num with
    | some i => exact ⟨_, rfl⟩
    | none => exact ⟨_, rfl⟩

theorem perform_completes (input : Input) (s : State) : ∃ t, perform input s = .next t := by
  cases input with
  | writeCsr num v => exact hostWriteCsr_completes num v s
  | readCsr | writeBuf | readBuf | hardReset => exact ⟨_, rfl⟩

/-! ### Idle, or the next action (rule R279) -/

/-- Settles O10: `step` at an empty list of actions (assumption log 5). -/
theorem idleEngineKeepsAllState : Obligations.IdleEngineKeepsAllState := by
  intro s hidle
  simp [step, hidle]

/-- Settles O9: the step is idle or performs the next action, and every action completes. -/
theorem everyStepCompletes : Obligations.EveryStepCompletes := by
  intro s
  cases hpending : s.pending with
  | nil => exact ⟨s, idleEngineKeepsAllState s hpending⟩
  | cons input rest => exact step_of_pending hpending ▸ perform_completes input _

end Sys2Proof.Machine

/-! ## Only reset clears (`70_reset_and_hazards.md`)

What a step that is no reset keeps is one relation of two states, `State.Retains`: by the cases of
`Effect` for a command, and by the action for a step. A command is executed only while `FAULT` is 0, so
its own fault replaces none. -/

namespace Sys2Proof.Machine

/-- What only a reset takes from `s` is still there in `t`; the signature may be missing if `ERR` tells
of a failed decode (rule R292). -/
structure State.Retains (s t : State) : Prop where
  fault : ∀ code, s.fault = some code → t.fault = some code ∧ t.fcmd = s.fcmd
  x : ∀ i : Fin 16, s.x[i].isSome → t.x[i].isSome
  f : ∀ i : Fin 16, s.f[i].isSome → t.f[i].isSome
  p : ∀ i : Fin 8, s.p[i] ≠ .empty → t.p[i] ≠ .empty
  m : ∀ i : Fin 4, s.m[i].isSome → t.m[i].isSome
  n : ∀ i : Fin 8, s.n[i].isSome → t.n[i].isSome
  c : ∀ i : Fin 4, s.c[i].isSome → t.c[i].isSome
  sig : s.sig.isSome → t.sig.isSome ∨ t.err ≠ none

theorem State.Retains.refl (s : State) : s.Retains s where
  fault _ hcode := ⟨hcode, rfl⟩
  x _ := id
  f _ := id
  p _ := id
  m _ := id
  n _ := id
  c _ := id
  sig := .inl

/-! ### Register writes -/

/-- A write of an entry that meets `P` keeps `P` of every entry. -/
theorem entry_set {α : Type} {len : Nat} (P : α → Prop) {r : Vector α len} (k : Fin len) {w : α}
    (hw : P w) (i : Fin len) (hi : P r[i]) : P (r.set k.val w k.isLt)[i] := by
  rw [Fin.getElem_fin, Vector.getElem_set]
  split
  · exact hw
  · exact hi

/-- A write of a value clears no valid bit. -/
theorem isSome_set {α : Type} {len : Nat} {r : Vector (Option α) len} (k : Fin len) (v : α)
    (i : Fin len) (hi : r[i].isSome) : (r.set k.val (some v) k.isLt)[i].isSome :=
  entry_set (fun o : Option α => o.isSome) k (w := some v) rfl i hi

/-- A write of a polynomial makes no register `EMPTY`. -/
theorem ne_empty_set {len : Nat} {r : Vector PolyReg len} (k : Fin len) (form : Form) (e : Poly)
    (i : Fin len) (hi : r[i] ≠ .empty) : (r.set k.val (.held form e) k.isLt)[i] ≠ .empty :=
  entry_set (· ≠ PolyReg.empty) k (w := .held form e) nofun i hi

/-! ### Commands -/

/-- An effect leaves `FAULT` and `FCMD`, and writes only values, valid polynomials and whole
signatures; the one exception is the failed LOAD, which writes its error. -/
theorem Effect.retains {i : Instr} {s t : State} (h : Effect i s t) : s.Retains t := by
  have hs := State.Retains.refl s
  cases h with
  | x d v => exact { hs with x := isSome_set d v }
  | f d v => exact { hs with f := isSome_set d v }
  | p d form e => exact { hs with p := ne_empty_set d form e }
  | m k v hv => exact { hs with m := isSome_set k v }
  | n k v hv => exact { hs with n := isSome_set k v }
  | c k v => exact { hs with c := isSome_set k v }
  | decoded d e hi => exact { hs with p := ne_empty_set d .coef e, sig := .inl }
  | undecoded d e hi => exact { hs with sig := .inl }
  | loaded sg hi hb hd => exact { hs with sig := fun _ => .inl rfl }
  | unloaded e hi => exact { hs with sig := fun _ => .inr nofun }
  | stored sg hi hsig => exact { hs with }
  | nonce sg hi hsig =>
    refine { hs with n := fun j _ => ?_ }
    rw [tabulate_getElem_fin]
    rfl

/-- A fault taken while there is none replaces none. -/
theorem takeFault_retains {s : State} (hs : s.faultFree) (code : FaultCode) (w : Word32) :
    s.Retains (takeFault code w s) :=
  { State.Retains.refl s with fault := fun _ hcode => nomatch hs.symm.trans hcode }

theorem exec_retains {i : Instr} {s t : State} (hs : s.faultFree) (h : exec i s = .next t) :
    s.Retains t := by
  obtain heffect | ⟨code, rfl⟩ := exec_cases h
  · exact heffect.retains
  · exact takeFault_retains hs code (encode i)

theorem issue_retains {w : Word32} {s t : State} (h : issue w s = .next t) : s.Retains t := by
  obtain ⟨-, rfl⟩ | ⟨hs, rfl, -⟩ | ⟨hs, i, -, hexec⟩ := issue_cases h
  · exact State.Retains.refl t
  · exact takeFault_retains hs .illegal w
  · exact exec_retains hs hexec

/-! ### The actions of the outside world -/

theorem hostWriteCsr_retains {num : Nat} {v : Word64} {s t : State}
    (h : hostWriteCsr num v s = .next t) (hreset : ¬ (num = 0x04 ∧ v.getLsbD 0 = true)) :
    s.Retains t := by
  obtain ⟨-, rfl⟩ | ⟨hnum, rfl⟩ | ⟨-, hissue⟩ | ⟨i, -, rfl⟩ | rfl := hostWriteCsr_cases h
  · exact { State.Retains.refl s with }
  · rw [if_neg fun hbit => hreset ⟨hnum, hbit⟩]
    exact State.Retains.refl s
  · exact issue_retains hissue
  · exact { State.Retains.refl s with x := isSome_set i v }
  · exact State.Retains.refl t

theorem hostReadCsr_retains (num : Nat) (s : State) : s.Retains (hostReadCsr num s) := by
  obtain ⟨v, -, heq⟩ | ⟨-, heq⟩ := hostReadCsr_cases num s
  · exact heq ▸ { State.Retains.refl s with }
  · exact heq ▸ { State.Retains.refl s with }

theorem hostWriteBuf_retains (a : Nat) (b : Byte) (s : State) : s.Retains (hostWriteBuf a b s) := by
  obtain ha | ha := Nat.lt_or_ge a serLen
  · rw [hostWriteBuf_inside ha]
    exact { State.Retains.refl s with }
  · rw [hostWriteBuf_outside ha]
    exact State.Retains.refl s

theorem hostReadBuf_retains (a : Nat) (s : State) : s.Retains (hostReadBuf a s) := by
  obtain ⟨-, heq⟩ | ⟨-, heq⟩ := hostReadBuf_cases a s
  · exact heq ▸ { State.Retains.refl s with }
  · exact heq ▸ { State.Retains.refl s with }

theorem step_retains {s t : State} (h : step s = .next t) (hreset : ¬ s.resetIsNext) :
    s.Retains t := by
  obtain ⟨-, rfl⟩ | ⟨input, rest, hpending, hperform⟩ := step_cases h
  · exact State.Retains.refl t
  · suffices hrest : State.Retains { s with pending := rest } t from { hrest with }
    cases input with
    | hardReset => exact absurd ⟨rest, .inl hpending⟩ hreset
    | writeCsr num v =>
      refine hostWriteCsr_retains hperform ?_
      rintro ⟨rfl, hbit⟩
      exact hreset ⟨rest, .inr ⟨v, hpending, hbit⟩⟩
    | readCsr num => cases hperform; exact hostReadCsr_retains num _
    | writeBuf a b => cases hperform; exact hostWriteBuf_retains a b _
    | readBuf a => cases hperform; exact hostReadBuf_retains a _

/-- Settles O8: such a step retains (`step_retains`), and of the steps that lose the signature only the
issue of LOAD is no reset (O13). -/
theorem onlyResetClearsFaultsAndValues : Obligations.OnlyResetClearsFaultsAndValues := by
  intro s t h hreset
  have hkeep := step_retains h hreset
  refine ⟨hkeep.fault, hkeep.x, hkeep.f, hkeep.p, hkeep.m, hkeep.n, hkeep.c, fun hsig hlost => ?_⟩
  have hchanged : t.sig ≠ s.sig := fun heq => by simp [← heq, hlost] at hsig
  have herr : t.err ≠ none := (hkeep.sig hsig).resolve_left (by simp [hlost])
  exact ⟨herr, (onlyLoadAndResetChangeSig s t h hchanged).resolve_left hreset⟩

end Sys2Proof.Machine
